-- ==== Sys2Proof/Word.lean ====
section
/-! DEFINITION. The word type of PIBX-1: storage words, operands, results and registers are 32 bits
(00_scope.md R8 and R10, 10_state.md R38). -/
namespace Sys2Proof

/-- A 32-bit storage word, operand, result or register (R8, R10). -/
abbrev Word := BitVec 32

end Sys2Proof
end

