-- ==== Sys2Proof/Config.lean ====
section
/-! DEFINITION. What one implementation of PIBX-1 fixes: the number of iterator slots, the number of physical
storage words W_MAX and the reservation function GROW (00_scope.md R9, R11, R13). The last two are the
parameters "the model takes as an argument"; State carries them (log entries 3 and 4). -/
namespace Sys2Proof

/-- An iterator slot number: ITER_SLOTS is 4 (R11). -/
abbrev SlotId := Fin 4

namespace Config

/-- ITER_SLOTS (R11). -/
def iterSlots : Nat := 4

/-- One point of the graph of GROW: `GROW(reserved, need)` is `gives`. -/
structure GrowPoint where
  reserved : Nat
  need     : Nat
  gives    : Nat
  deriving DecidableEq, Repr

/-- The implementation parameters of one block. `wMaxPred` is W_MAX - 1, so that every value of the type is a legal
W_MAX, 1 to 2^27 - 1 (R9). `growPoints` is the graph of GROW where it differs from the default of R13. -/
structure Params where
  wMaxPred   : Fin 134217727
  growPoints : List GrowPoint
  deriving DecidableEq, Repr

/-- The parameters of the reset state: W_MAX = 1024 (DESIGN CHOICE, log entry 3: the value of the spec's test vectors) and the
default GROW of R13 (PRESUMED, log entry 4: the spec's G1). -/
def defaultParams : Params := { wMaxPred := 1023, growPoints := [] }

end Config
end Sys2Proof
end

