-- ==== Sys2Proof/Syntax.lean ====
section
/-! DEFINITION. The command set as syntax: one constructor per row of spec/opcode_table.json (30_encoding.md R73),
each with the fields and operands that command uses (R73, R75). Operands a command ignores (R76) are not part of
the instruction. -/
namespace Sys2Proof

/-- One transaction's three inputs on the command port: CMD, A and B (R70). -/
structure Command where
  word : Word
  a    : Word
  b    : Word
  deriving DecidableEq, Repr

/-- The 15 commands. `width` is the element width N = NM1 + 1 as R75 decodes it; `slot` is CMD.SLOT; the words are
operand A (`n`, `index`, `number`) or operand B (`value`). -/
inductive Instr where
  | new (width : Nat)
  | withCapacity (width : Nat) (n : Word)
  | len
  | capacity
  | push (value : Word)
  | get (index : Word)
  | getUnchecked (index : Word)
  | set (index : Word) (value : Word)
  | setUnchecked (index : Word) (value : Word)
  | iter (slot : SlotId)
  | intoIter (slot : SlotId)
  | iterNext (slot : SlotId)
  | iterDrop (slot : SlotId)
  | rdreg (number : Word)
  | rdword (index : Word)
  deriving DecidableEq, Repr

end Sys2Proof
end

