-- ==== Sys2Proof/WellFormed.lean ====
section
/-! DEFINITION. Which instruction terms the command word can carry: an element width is 1 to 32 (00_scope.md R7).
A slot number and an operand word are in range by their types. -/
namespace Sys2Proof

/-- The width check of R7: `1 <= N <= 32`. -/
def widthOk (width : Nat) : Bool := decide (1 ≤ width) && decide (width ≤ 32)

/-- A term the encoding can carry. -/
def Instr.wellFormed : Instr → Bool
  | .new width            => widthOk width
  | .withCapacity width _ => widthOk width
  | .len                  => true
  | .capacity             => true
  | .push _               => true
  | .get _                => true
  | .getUnchecked _       => true
  | .set _ _              => true
  | .setUnchecked _ _     => true
  | .iter _               => true
  | .intoIter _           => true
  | .iterNext _           => true
  | .iterDrop _           => true
  | .rdreg _              => true
  | .rdword _             => true

end Sys2Proof
end

