-- ==== Sys2Proof/Decode.lean ====
section
/-! DEFINITION. Decoding a command (30_encoding.md R72 to R77), total on every (CMD, A, B): an instruction, or none for
an illegal word; then the encoder, from the same rules. -/
namespace Sys2Proof

/-! ## The fields of a command word (R72) -/

def opField (w : Word) : BitVec 4 := w.extractLsb' 0 4
def slotField (w : Word) : BitVec 2 := w.extractLsb' 4 2
def reservedLow (w : Word) : BitVec 2 := w.extractLsb' 6 2
def nm1Field (w : Word) : BitVec 5 := w.extractLsb' 8 5
def reservedHigh (w : Word) : BitVec 19 := w.extractLsb' 13 19

/-- OP is one of the four iterator commands, which use SLOT (R72). -/
def opUsesSlot (op : BitVec 4) : Bool := op == 0xA || op == 0xB || op == 0xC || op == 0xD

/-- OP is one of the two constructors, which use NM1 (R72). -/
def opUsesNm1 (op : BitVec 4) : Bool := op == 0x1 || op == 0x2

/-- The decode check of R77: which command words are illegal. -/
def illegal (w : Word) : Bool :=
  opField w == 0
  || (reservedHigh w != 0 || reservedLow w != 0)
  || (slotField w != 0 && !opUsesSlot (opField w))
  || (nm1Field w != 0 && !opUsesNm1 (opField w))

/-- `N = zext_6(CMD[12:8]) + 1` (R75). -/
def widthOf (w : Word) : Nat := (nm1Field w).toNat + 1

/-- `SLOT = CMD[5:4]` (R75). -/
def slotOf (w : Word) : SlotId := (slotField w).toFin

/-- The instruction of a command, or none when its word is illegal (R73, R75, R77). -/
def decode (c : Command) : Option Instr :=
  if illegal c.word then none
  else
    match opField c.word with
    | 0x1#4 => some (.new (widthOf c.word))
    | 0x2#4 => some (.withCapacity (widthOf c.word) c.a)
    | 0x3#4 => some .len
    | 0x4#4 => some .capacity
    | 0x5#4 => some (.push c.b)
    | 0x6#4 => some (.get c.a)
    | 0x7#4 => some (.getUnchecked c.a)
    | 0x8#4 => some (.set c.a c.b)
    | 0x9#4 => some (.setUnchecked c.a c.b)
    | 0xA#4 => some (.iter (slotOf c.word))
    | 0xB#4 => some (.intoIter (slotOf c.word))
    | 0xC#4 => some (.iterNext (slotOf c.word))
    | 0xD#4 => some (.iterDrop (slotOf c.word))
    | 0xE#4 => some (.rdreg c.a)
    | 0xF#4 => some (.rdword c.a)
    | _     => none

/-- The three words of a transaction read as one number with CMD in bits 31:0, A in 63:32 and B in 95:64. -/
def Command.ofBits (w : Nat) : Command :=
  { word := BitVec.ofNat 32 w, a := BitVec.ofNat 32 (w >>> 32), b := BitVec.ofNat 32 (w >>> 64) }

/-- What the decoder reads from the transaction whose low `nbits` bits are those of `w` and whose other bits are 0. -/
def decodeTableWord (nbits w : Nat) : Option Instr := decode (Command.ofBits (w % 2 ^ nbits))

/-! ## The encoder -/

/-- A command word from its fields, in the pattern form of R72, bit 31 first. -/
def commandWord (nm1 : BitVec 5) (slot : BitVec 2) (op : BitVec 4) : Word :=
  0#19 ++ nm1 ++ 0#2 ++ slot ++ op

/-- The NM1 field of an element width: N - 1. -/
def nm1OfWidth (width : Nat) : BitVec 5 := BitVec.ofNat 5 (width - 1)

/-- The SLOT field of a slot number. -/
def slotBits (k : SlotId) : BitVec 2 := BitVec.ofFin k

/-- The command an assembler writes for an instruction (R74, R80): 0 in every ignored operand. -/
def encode : Instr → Command
  | .new width            => ⟨commandWord (nm1OfWidth width) 0 0x1, 0, 0⟩
  | .withCapacity width n => ⟨commandWord (nm1OfWidth width) 0 0x2, n, 0⟩
  | .len                  => ⟨commandWord 0 0 0x3, 0, 0⟩
  | .capacity             => ⟨commandWord 0 0 0x4, 0, 0⟩
  | .push value           => ⟨commandWord 0 0 0x5, 0, value⟩
  | .get index            => ⟨commandWord 0 0 0x6, index, 0⟩
  | .getUnchecked index   => ⟨commandWord 0 0 0x7, index, 0⟩
  | .set index value      => ⟨commandWord 0 0 0x8, index, value⟩
  | .setUnchecked index value => ⟨commandWord 0 0 0x9, index, value⟩
  | .iter k               => ⟨commandWord 0 (slotBits k) 0xA, 0, 0⟩
  | .intoIter k           => ⟨commandWord 0 (slotBits k) 0xB, 0, 0⟩
  | .iterNext k           => ⟨commandWord 0 (slotBits k) 0xC, 0, 0⟩
  | .iterDrop k           => ⟨commandWord 0 (slotBits k) 0xD, 0, 0⟩
  | .rdreg number         => ⟨commandWord 0 0 0xE, number, 0⟩
  | .rdword index         => ⟨commandWord 0 0 0xF, index, 0⟩

/-- The pseudo-instruction PUSHV: one PUSH per value, in order (R81). -/
def pushV (values : List Word) : List Command := values.map fun v => encode (.push v)

/-! ## The opcode map as rows (R74) -/

/-- One row of the table of R74: a word `w` selects it when `w &&& mask = pattern`. -/
structure OpcodeRow where
  mnemonic : String
  pattern  : Word
  mask     : Word
  deriving DecidableEq, Repr

/-- The table of R74. -/
def opcodeRows : List OpcodeRow :=
  [ ⟨"NEW", 0x00000001, 0xFFFFE0FF⟩, ⟨"WITH_CAPACITY", 0x00000002, 0xFFFFE0FF⟩,
    ⟨"LEN", 0x00000003, 0xFFFFFFFF⟩, ⟨"CAPACITY", 0x00000004, 0xFFFFFFFF⟩,
    ⟨"PUSH", 0x00000005, 0xFFFFFFFF⟩, ⟨"GET", 0x00000006, 0xFFFFFFFF⟩,
    ⟨"GET_UNCHECKED", 0x00000007, 0xFFFFFFFF⟩, ⟨"SET", 0x00000008, 0xFFFFFFFF⟩,
    ⟨"SET_UNCHECKED", 0x00000009, 0xFFFFFFFF⟩, ⟨"ITER", 0x0000000A, 0xFFFFFFCF⟩,
    ⟨"INTO_ITER", 0x0000000B, 0xFFFFFFCF⟩, ⟨"ITER_NEXT", 0x0000000C, 0xFFFFFFCF⟩,
    ⟨"ITER_DROP", 0x0000000D, 0xFFFFFFCF⟩, ⟨"RDREG", 0x0000000E, 0xFFFFFFFF⟩,
    ⟨"RDWORD", 0x0000000F, 0xFFFFFFFF⟩ ]

/-- The mnemonic of an instruction's row. -/
def Instr.mnemonic : Instr → String
  | .new _            => "NEW"
  | .withCapacity _ _ => "WITH_CAPACITY"
  | .len              => "LEN"
  | .capacity         => "CAPACITY"
  | .push _           => "PUSH"
  | .get _            => "GET"
  | .getUnchecked _   => "GET_UNCHECKED"
  | .set _ _          => "SET"
  | .setUnchecked _ _ => "SET_UNCHECKED"
  | .iter _           => "ITER"
  | .intoIter _       => "INTO_ITER"
  | .iterNext _       => "ITER_NEXT"
  | .iterDrop _       => "ITER_DROP"
  | .rdreg _          => "RDREG"
  | .rdword _         => "RDWORD"

end Sys2Proof
end

