-- ==== Sys2Proof/Machine/State.lean ====
section
/-! DEFINITION. The state of PIBX-1 (10_state.md) as plain data, its reset (70_reset_and_hazards.md R240), and the reasons a
step can stop. -/
namespace Sys2Proof.Machine

/-- The status codes of 60_exceptions.md R200, by name. Codes 12 to 15 are reserved and never returned, so they have
no name here (log entry 11). -/
inductive Status where
  | ok
  | absent
  | eRange
  | eBounds
  | eOob
  | eIllegal
  | eNoArray
  | eBorrowed
  | eMoved
  | eSlot
  | eNoMem
  | eBusy
  deriving DecidableEq, Repr

/-- The values of SLOT[k].STATE (10_state.md R37). Value 3 is "never held". -/
inductive SlotState where
  | idle
  | borrow
  | own
  deriving DecidableEq, Repr

/-- One iterator slot (R36): its STATE and its cursor CUR. -/
structure Slot where
  state : SlotState
  cur   : Word
  deriving DecidableEq, Repr

/-- A response: what rsp_status and rsp_result carry (30_encoding.md R70). -/
structure Response where
  status : Status
  result : Word
  deriving DecidableEq, Repr

/-- The word storage, WORD[0] to WORD[W_MAX - 1] (R27): word indices with the words they hold, in the canonical form
`Storage.wf` of Machine/Ops.lean. The cells are words because the word index "is the only address there is"
(00_scope.md R16; log entry 1). -/
abbrev Storage := List (Nat × Word)

/-- What the host does to the block (log entries 5 to 7). -/
inductive Input where
  /-- It presents a command (R70). -/
  | command (c : Command)
  /-- It takes the response (rsp_ready, R71). -/
  | takeResponse
  /-- It asserts reset (R241). `contents` are the words the storage holds afterwards, which the spec leaves
  unspecified (R240): whatever they are, they come from here. -/
  | reset (contents : List (Nat × Word))
  deriving DecidableEq, Repr

/-- The state of the block, of its command port, and the implementation parameters it is built with. -/
structure State where
  /-- W_MAX and GROW (00_scope.md R9, R13): constant along every run. -/
  params    : Config.Params
  /-- CFG.NM1 = N - 1 (R22). -/
  nm1       : BitVec 5
  /-- CFG.VALID: an array has been constructed (R22). -/
  valid     : Bool
  /-- LENGTH: the element count (R24). -/
  length    : Word
  /-- WCOUNT: the number of allocated words (R25). -/
  wcount    : Word
  /-- WRESV: the number of reserved words (R26). -/
  wresv     : Word
  /-- STATUS: the last command's status (R33). -/
  status    : Status
  /-- ERRLOG[11:2], the bits of ERRLOG that are not hardwired 0 (R34). -/
  errlog    : BitVec 10
  /-- RESULT: the last command's result (R35). -/
  result    : Word
  /-- The four iterator slots (R36). -/
  slots     : Vector Slot 4
  /-- The word storage (R27). -/
  storage   : Storage
  /-- The response outputs: a response is pending (rsp_valid) or none is (R71, R240). -/
  rsp       : Option Response
  /-- The host's acts the block has not taken yet, first act first (the model's own; R21, log entry 5). -/
  inputs    : List Input
  /-- The responses delivered so far, in order: a run's observation (the model's own; R21, log entry 6). -/
  delivered : List Response
  deriving DecidableEq, Repr

/-- Why the machine stops. The block itself never does (60_exceptions.md R204). -/
inductive Fault where
  /-- Raised by `onWord` (so by PUSH, GET, GET_UNCHECKED, SET, SET_UNCHECKED, ITER_NEXT and RDWORD) for a word index at or
  above W_MAX, an address that does not exist (20_memory.md R50). No state that meets R30 reaches it. Safe
  (log entry 9). -/
  | noSuchWord
  deriving DecidableEq, Repr

/-- Why an instruction has no meaning. -/
inductive Refusal where
  /-- Raised by an arm of `exec` whose instruction has no meaning yet; no arm is left so. Safe. -/
  | notModelled (mnemonic : String)
  deriving DecidableEq, Repr

/-- An idle slot as reset and ITER_DROP leave it (R37, R38). -/
def Slot.closed : Slot := { state := .idle, cur := 0 }

/-- The state right after reset of a block with the given parameters (R240). The storage lists nothing, and the host
has done nothing yet (log entries 2 and 14). -/
def State.resetAt (params : Config.Params) : State where
  params    := params
  nm1       := 0
  valid     := false
  length    := 0
  wcount    := 0
  wresv     := 0
  status    := .ok
  errlog    := 0
  result    := 0
  slots     := #v[Slot.closed, Slot.closed, Slot.closed, Slot.closed]
  storage   := []
  rsp       := none
  inputs    := []
  delivered := []

/-- The machine right after reset (R240), with the parameters of log entries 3 and 4. -/
def State.reset : State := State.resetAt Config.defaultParams

end Sys2Proof.Machine
end

