-- ==== Sys2Proof/Machine/Ops.lean ====
section
/-! DEFINITION. The named operations over the storage, the parameters, the registers, the slots and the command port. -/
namespace Sys2Proof.Machine

/-! ## The word storage (10_state.md R27, 20_memory.md R50, R67) -/

/-- What a word nothing has written reads as (DESIGN CHOICE, log entry 2: the spec leaves it unspecified and shows that no
run observes it). -/
def unwrittenWord : Word := 0

/-- The word at index `k`: the value the last write to that word left (R67). -/
def Storage.read : Storage → Nat → Word
  | [], _ => unwrittenWord
  | (j, w) :: rest, k => if j = k then w else Storage.read rest k

/-- A cell put in its place among cells with rising indices. -/
def Storage.place : Storage → Nat → Word → Storage
  | [], k, v => [(k, v)]
  | (j, w) :: rest, k, v => if k < j then (k, v) :: (j, w) :: rest else (j, w) :: Storage.place rest k v

/-- The storage after `MemWrite(k, 32, v)` (00_scope.md R16). -/
def Storage.write (m : Storage) (k : Nat) (v : Word) : Storage :=
  let others := m.filter fun c => c.1 != k
  if v = unwrittenWord then others else Storage.place others k v

/-- The canonical form: indices strictly rising, and no cell equal to what an unlisted word reads as. -/
abbrev Storage.wf (m : Storage) : Prop :=
  m.Pairwise (fun c d => c.1 < d.1) ∧ ∀ c ∈ m, c.2 ≠ unwrittenWord

/-- The storage that holds the listed words, for a block of `bound` words. -/
def Storage.ofCells (bound : Nat) (cells : List (Nat × Word)) : Storage :=
  cells.foldl (fun m c => if c.1 < bound then m.write c.1 c.2 else m) []

/-- WORD[k], which is `MemRead(k, 32)` (R16). -/
def State.word (s : State) (k : Nat) : Word := s.storage.read k

/-- `MemWrite(k, 32, v)` (R16). -/
def State.writeWord (s : State) (k : Nat) (v : Word) : State := { s with storage := s.storage.write k v }

/-- Storage bit `b` is bit `b % 32` of word `b / 32` (00_scope.md R18, 20_memory.md R52). -/
def State.storageBit (s : State) (b : Nat) : Bool := (s.word (b / 32)).getLsbD (b % 32)

/-! ## Parameters (00_scope.md R9, R13) -/

/-- W_MAX (R9). -/
def State.wMax (s : State) : Nat := s.params.wMaxPred.val + 1

/-- The default GROW of R13: `min(W_MAX, max(need, 2*c, 4))`. -/
def defaultGrow (wMax reserved need : Nat) : Nat := min wMax (max need (max (2 * reserved) 4))

/-- The value of GROW before its law is applied: a listed point, else the default. -/
def grownBy (wMax : Nat) (points : List Config.GrowPoint) (reserved need : Nat) : Nat :=
  match points.find? fun p => p.reserved == reserved && p.need == need with
  | some p => p.gives
  | none   => defaultGrow wMax reserved need

/-- GROW(c, need), held to its law `need <= GROW(c, need) <= W_MAX` whenever `need <= W_MAX` (R13, log entry 4). -/
def State.grow (s : State) (reserved need : Nat) : Nat :=
  max need (min s.wMax (grownBy s.wMax s.params.growPoints reserved need))

/-! ## Registers -/

/-- N = CFG.NM1 + 1 (10_state.md R22). -/
def State.width (s : State) : Nat := s.nm1.toNat + 1

/-- MAX = 2^N - 1 as a number (R7). -/
def maxOfWidth (width : Nat) : Nat := 2 ^ width - 1

/-- MAX = 2^N - 1 as a word (R7): the mask of an element's bits. -/
def State.maxWord (s : State) : Word := BitVec.ofNat 32 (maxOfWidth s.width)

/-- CFG as the host reads it: NM1 in bits 4:0, VALID in bit 8, the reserved bits hardwired 0 (R22). -/
def State.cfgWord (s : State) : Word := 0#23 ++ BitVec.ofBool s.valid ++ 0#3 ++ s.nm1

/-- MAXV as the host reads it: derived, and 0 without an array (R23). -/
def State.maxvWord (s : State) : Word := if s.valid then s.maxWord else 0

/-- ERRLOG as the host reads it: bits 1:0 and 31:12 hardwired 0 (R34). -/
def State.errlogWord (s : State) : Word := 0#20 ++ s.errlog ++ 0#2

/-- The 4-bit code of a status (60_exceptions.md R200). -/
def Status.code : Status → BitVec 4
  | .ok        => 0
  | .absent    => 1
  | .eRange    => 2
  | .eBounds   => 3
  | .eOob      => 4
  | .eIllegal  => 5
  | .eNoArray  => 6
  | .eBorrowed => 7
  | .eMoved    => 8
  | .eSlot     => 9
  | .eNoMem    => 10
  | .eBusy     => 11

/-- The 2-bit value of a slot state (10_state.md R37). -/
def SlotState.code : SlotState → BitVec 2
  | .idle   => 0
  | .borrow => 1
  | .own    => 2

/-! ## Iterator slots (R36 to R40) -/

/-- SLOT[k]. -/
def State.slot (s : State) (k : SlotId) : Slot := s.slots[k]

/-- SLOT[k] replaced. -/
def State.setSlot (s : State) (k : SlotId) (v : Slot) : State := { s with slots := s.slots.set k v }

/-- `borrowed = exists k. SLOT[k].STATE = BORROW` (R40). -/
def State.borrowed (s : State) : Bool := decide (∃ k : SlotId, (s.slot k).state = .borrow)

/-- `moved = exists k. SLOT[k].STATE = OWN` (R40). -/
def State.moved (s : State) : Bool := decide (∃ k : SlotId, (s.slot k).state = .own)

/-- `any_iter = exists k. SLOT[k].STATE != IDLE` (R40). -/
def State.anyIter (s : State) : Bool := decide (∃ k : SlotId, (s.slot k).state ≠ .idle)

/-! ## Register numbers (43_observation.md R180) -/

/-- The registers RDREG names. -/
inductive Reg where
  | cfg
  | length
  | wcount
  | wresv
  | maxv
  | status
  | errlog
  | result
  | slotState (k : SlotId)
  | slotCur (k : SlotId)
  deriving DecidableEq, Repr

/-- The register of a number, or none for a reserved number (R180). -/
def Reg.ofNumber (a : Word) : Option Reg :=
  match a.toNat with
  | 0x00 => some .cfg
  | 0x01 => some .length
  | 0x02 => some .wcount
  | 0x03 => some .wresv
  | 0x04 => some .maxv
  | 0x05 => some .status
  | 0x06 => some .errlog
  | 0x07 => some .result
  | 0x10 => some (.slotState 0)
  | 0x11 => some (.slotState 1)
  | 0x12 => some (.slotState 2)
  | 0x13 => some (.slotState 3)
  | 0x14 => some (.slotCur 0)
  | 0x15 => some (.slotCur 1)
  | 0x16 => some (.slotCur 2)
  | 0x17 => some (.slotCur 3)
  | _    => none

/-- What a read of a register returns (R180). -/
def State.readReg (s : State) : Reg → Word
  | .cfg         => s.cfgWord
  | .length      => s.length
  | .wcount      => s.wcount
  | .wresv       => s.wresv
  | .maxv        => s.maxvWord
  | .status      => s.status.code.setWidth 32
  | .errlog      => s.errlogWord
  | .result      => s.result
  | .slotState k => (s.slot k).state.code.setWidth 32
  | .slotCur k   => (s.slot k).cur

/-! ## The array as a whole -/

/-- An empty array of width N with `resv` words reserved (40_lifecycle.md R100, R101): the storage keeps its words, none
of them allocated. -/
def State.construct (s : State) (width resv : Nat) : State :=
  { s with
    nm1 := nm1OfWidth width
    valid := true
    length := 0
    wcount := 0
    wresv := BitVec.ofNat 32 resv }

/-- No array: CFG, LENGTH, WCOUNT and WRESV at their reset values (42_iteration.md R163). -/
def State.release (s : State) : State :=
  { s with nm1 := 0, valid := false, length := 0, wcount := 0, wresv := 0 }

/-- PUSH's allocation of one word (41_element_access.md R120): the reservation grows when it is full, the new word is
zero, and WCOUNT counts it. -/
def State.allocate (s : State) : State :=
  let grown := if s.wresv.toNat < s.wcount.toNat + 1
    then BitVec.ofNat 32 (s.grow s.wresv.toNat (s.wcount.toNat + 1))
    else s.wresv
  { s.writeWord s.wcount.toNat 0 with wresv := grown, wcount := s.wcount + 1 }

/-! ## The command port (30_encoding.md R70, R71) and reset (70_reset_and_hazards.md R240, R241) -/

/-- The host takes the response, if one is pending (R71). -/
def State.deliver (s : State) : State :=
  match s.rsp with
  | some r => { s with rsp := none, delivered := s.delivered ++ [r] }
  | none   => s

/-- The block takes the host's first act from the list; `rest` are the acts that follow it. -/
def State.takeInput (s : State) (rest : List Input) : State := { s with inputs := rest }

/-- The block accepts a command: "cmd_ready is 0 from the acceptance of a command until its response is delivered" (R71),
so the response before it has been delivered by then (log entry 6). -/
def State.accept (s : State) (rest : List Input) : State := (s.takeInput rest).deliver

/-- Reset (R240, R241): every register at its reset value, no response pending, one not delivered abandoned, and the
storage at unspecified contents. The parameters are the block's own, and the host's acts and what it received
before stand (log entry 7). -/
def State.applyReset (s : State) (contents : List (Nat × Word)) : State :=
  { State.resetAt s.params with
    storage := Storage.ofCells s.wMax contents
    inputs := s.inputs
    delivered := s.delivered }

end Sys2Proof.Machine
end

