-- ==== Sys2Proof/Machine/Flags.lean ====
section
/-! DEFINITION. The condition state STATUS, RESULT and ERRLOG (10_state.md R33 to R35): how every command completes
(60_exceptions.md R203), how it raises an error (00_scope.md R16), and the block-state checks that come before the
operand checks (60 R205, R206). -/
namespace Sys2Proof.Machine

/-- The outcome of a command. -/
abbrev Result := Host.Outcome State Fault Refusal

/-- The ERRLOG bits [11:2] after a completion with status `st`: `if st >= 2: ERRLOG[st] <- 1` (R203). -/
def errlogAfter (errlog : BitVec 10) (st : Status) : BitVec 10 :=
  if 2 ≤ st.code.toNat then errlog ||| (1#10 <<< (st.code.toNat - 2)) else errlog

/-- The result a completion delivers: `(st = OK) ? r : 0` (R203). -/
def resultAfter (st : Status) (r : Word) : Word := if st = .ok then r else 0

/-- `complete(st, r)` (R203): the last part of every command's atomic step. -/
def State.complete (s : State) (st : Status) (r : Word) : State :=
  { s with
    rsp := some { status := st, result := resultAfter st r }
    status := st
    result := resultAfter st r
    errlog := errlogAfter s.errlog st }

/-- A command that ends with `complete(st, r)` in the state its writes have left. -/
def finish (st : Status) (r : Word) (s : State) : Result := .next (s.complete st r)

/-- `raise E_X` is `complete(E_X, 0)` with no other state written (00_scope.md R16). The block's one way to report an error. -/
def raise (st : Status) (s : State) : Result := finish st 0 s

/-- The checks of a command that reads the array: E_NOARRAY, then E_MOVED (60 R205, R206). -/
def readRefusal (s : State) : Option Status :=
  if !s.valid then some .eNoArray else if s.moved then some .eMoved else none

/-- The checks of a command that writes the array or moves it: those of a read, then E_BORROWED (60 R205, R206). -/
def writeRefusal (s : State) : Option Status :=
  match readRefusal s with
  | some st => some st
  | none    => if s.borrowed then some .eBorrowed else none

/-- Goes on when there is no refusal, and raises it otherwise. -/
def unlessRefused (refusal : Option Status) (s : State) (go : Result) : Result :=
  match refusal with
  | some st => raise st s
  | none    => go

end Sys2Proof.Machine
end

