-- ==== Sys2Proof/Machine/Operands.lean ====
section
/-! DEFINITION. The element operand: where element `i` of an array of width `n` lies (00_scope.md R17, R18), whether its words
are allocated (41_element_access.md R121), and the shared functions that read and write it (R122 to R124). -/
namespace Sys2Proof.Machine

/-! ## Location (R17), exact, on unbounded naturals -/

/-- `bitpos(i) = i * N`. -/
def bitPos (n i : Nat) : Nat := i * n
/-- `word_index(i) = bitpos(i) / 32`. -/
def wordIndex (n i : Nat) : Nat := bitPos n i / 32
/-- `bit_offset(i) = bitpos(i) % 32`. -/
def bitOffset (n i : Nat) : Nat := bitPos n i % 32
/-- `available(i) = 32 - bit_offset(i)`. -/
def available (n i : Nat) : Nat := 32 - bitOffset n i
/-- `spans(i) = available(i) < N`: the element straddles two words. -/
def spans (n i : Nat) : Bool := decide (available n i < n)
/-- The highest word element `i` touches. -/
def lastWord (n i : Nat) : Nat := if spans n i then wordIndex n i + 1 else wordIndex n i

/-- `in_storage(i)`: every word element `i` touches is allocated (R121); against WCOUNT, never WRESV (90_conflicts.md C4). -/
def State.inStorage (s : State) (i : Nat) : Bool := decide (lastWord s.width i < s.wcount.toNat)

/-- `B > MAX` (60_exceptions.md R201, E_RANGE). -/
def State.outOfRange (s : State) (v : Word) : Bool := decide (maxOfWidth s.width < v.toNat)

/-- The access goes on when word `k` exists, that is when `k < W_MAX` (20_memory.md R50), and faults otherwise (log entry 9). -/
def onWord (k : Nat) (s : State) (go : Result) : Result :=
  if k < s.wMax then go else .fault .noSuchWord

/-- The same for every word element `i` touches. -/
def onElement (i : Nat) (s : State) (go : Result) : Result := onWord (lastWord s.width i) s go

/-! ## Extraction and insertion -/

/-- `extract(i)` (R124). -/
def State.extract (s : State) (i : Nat) : Word :=
  let n := s.width
  let wi := wordIndex n i
  let off := bitOffset n i
  let av := available n i
  if spans n i
  then ((s.word wi >>> off) ||| (s.word (wi + 1) <<< av)) &&& s.maxWord
  else (s.word wi >>> off) &&& s.maxWord

/-- `or_field(i, v)` (R122): ORs, and does not clear. -/
def State.orField (s : State) (i : Nat) (v : Word) : State :=
  let n := s.width
  let wi := wordIndex n i
  let off := bitOffset n i
  let av := available n i
  let low := s.writeWord wi (s.word wi ||| (v <<< off))
  if spans n i then low.writeWord (wi + 1) (s.word (wi + 1) ||| (v >>> av)) else low

/-- `write_field(i, v)` (R123): clears the element's N bits, then ORs. -/
def State.writeField (s : State) (i : Nat) (v : Word) : State :=
  let n := s.width
  let wi := wordIndex n i
  let off := bitOffset n i
  let av := available n i
  let maskLow := s.maxWord <<< off
  let maskHigh := s.maxWord >>> av
  let low := s.writeWord wi ((s.word wi &&& ~~~maskLow) ||| (v <<< off))
  if spans n i then low.writeWord (wi + 1) ((s.word (wi + 1) &&& ~~~maskHigh) ||| (v >>> av)) else low

end Sys2Proof.Machine
end

