-- ==== Sys2Proof/Machine/ElementAccess.lean ====
section
/-! DEFINITION. Element access: PUSH, GET, GET_UNCHECKED, SET, SET_UNCHECKED (41_element_access.md). -/
namespace Sys2Proof.Machine

/-- PUSH's `alloc`: the element at index LENGTH needs a word not yet allocated (R120). -/
def State.needsWord (s : State) : Bool :=
  spans s.width s.length.toNat || decide (s.wcount.toNat ≤ wordIndex s.width s.length.toNat)

/-- PUSH's writes after its allocation: the value ORed in at index LENGTH, and LENGTH counted up (R120). -/
def State.append (s : State) (value : Word) : State :=
  { s.orField s.length.toNat value with length := s.length + 1 }

/-- PUSH (R120). -/
def execPush (value : Word) (s : State) : Result :=
  unlessRefused (writeRefusal s) s <|
    if s.outOfRange value then raise .eRange s
    else if s.needsWord && decide (s.wMax < s.wcount.toNat + 1) then raise .eNoMem s
    else onElement s.length.toNat s <|
      finish .ok 0 ((if s.needsWord then s.allocate else s).append value)

/-- GET (R125). -/
def execGet (index : Word) (s : State) : Result :=
  unlessRefused (readRefusal s) s <|
    if s.length ≤ index then finish .absent 0 s
    else onElement index.toNat s <| finish .ok (s.extract index.toNat) s

/-- GET_UNCHECKED (R126). -/
def execGetUnchecked (index : Word) (s : State) : Result :=
  unlessRefused (readRefusal s) s <|
    if !s.inStorage index.toNat then raise .eOob s
    else onElement index.toNat s <| finish .ok (s.extract index.toNat) s

/-- SET (R130): E_BOUNDS before E_RANGE. -/
def execSet (index value : Word) (s : State) : Result :=
  unlessRefused (writeRefusal s) s <|
    if s.length ≤ index then raise .eBounds s
    else if s.outOfRange value then raise .eRange s
    else onElement index.toNat s <| finish .ok 0 (s.writeField index.toNat value)

/-- SET_UNCHECKED (R131): E_RANGE before E_OOB. -/
def execSetUnchecked (index value : Word) (s : State) : Result :=
  unlessRefused (writeRefusal s) s <|
    if s.outOfRange value then raise .eRange s
    else if !s.inStorage index.toNat then raise .eOob s
    else onElement index.toNat s <| finish .ok 0 (s.writeField index.toNat value)

end Sys2Proof.Machine
end

