-- ==== Sys2Proof/Machine/Iteration.lean ====
section
/-! DEFINITION. Iteration: ITER, INTO_ITER, ITER_NEXT, ITER_DROP (42_iteration.md). -/
namespace Sys2Proof.Machine

/-- ITER (R160). -/
def execIter (k : SlotId) (s : State) : Result :=
  if (s.slot k).state ≠ .idle then raise .eSlot s
  else unlessRefused (readRefusal s) s <| finish .ok 0 (s.setSlot k { state := .borrow, cur := 0 })

/-- INTO_ITER (R161). -/
def execIntoIter (k : SlotId) (s : State) : Result :=
  if (s.slot k).state ≠ .idle then raise .eSlot s
  else unlessRefused (writeRefusal s) s <| finish .ok 0 (s.setSlot k { state := .own, cur := 0 })

/-- ITER_NEXT (R162): an exhausted iterator's cursor stays. -/
def execIterNext (k : SlotId) (s : State) : Result :=
  if (s.slot k).state = .idle then raise .eSlot s
  else if s.length ≤ (s.slot k).cur then finish .absent 0 s
  else onElement (s.slot k).cur.toNat s <|
    finish .ok (s.extract (s.slot k).cur.toNat)
      (s.setSlot k { state := (s.slot k).state, cur := (s.slot k).cur + 1 })

/-- ITER_DROP (R163): dropping an owning iterator releases the array. -/
def execIterDrop (k : SlotId) (s : State) : Result :=
  if (s.slot k).state = .idle then raise .eSlot s
  else finish .ok 0 ((if (s.slot k).state = .own then s.release else s).setSlot k Slot.closed)

end Sys2Proof.Machine
end

