-- ==== Sys2Proof/Machine/Lifecycle.lean ====
section
/-! DEFINITION. Construction and inspection: NEW, WITH_CAPACITY, LEN, CAPACITY (40_lifecycle.md). -/
namespace Sys2Proof.Machine

/-- NEW (R100). -/
def execNew (width : Nat) (s : State) : Result :=
  if s.anyIter then raise .eBusy s
  else finish .ok 0 (s.construct width 0)

/-- `ceil(N * n / 32)`: the words `count` elements need (R101). -/
def wordsFor (width count : Nat) : Nat := (width * count + 31) / 32

/-- WITH_CAPACITY (R101). -/
def execWithCapacity (width : Nat) (n : Word) (s : State) : Result :=
  if s.anyIter then raise .eBusy s
  else if s.wMax < wordsFor width n.toNat then raise .eNoMem s
  else finish .ok 0 (s.construct width (wordsFor width n.toNat))

/-- LEN (R102). -/
def execLen (s : State) : Result :=
  unlessRefused (readRefusal s) s (finish .ok s.length s)

/-- CAPACITY (R103). -/
def execCapacity (s : State) : Result :=
  unlessRefused (readRefusal s) s (finish .ok (BitVec.ofNat 32 (s.wresv.toNat * 32 / s.width)) s)

end Sys2Proof.Machine
end

