-- ==== Sys2Proof/Machine/Observation.lean ====
section
/-! DEFINITION. Observation: RDREG, RDWORD (43_observation.md). -/
namespace Sys2Proof.Machine

/-- RDREG (R180): the value before this command; a reserved register number is E_ILLEGAL. -/
def execRdreg (number : Word) (s : State) : Result :=
  match Reg.ofNumber number with
  | some r => finish .ok (s.readReg r) s
  | none   => raise .eIllegal s

/-- RDWORD (R181). -/
def execRdword (index : Word) (s : State) : Result :=
  if s.wcount ≤ index then raise .eOob s
  else onWord index.toNat s <| finish .ok (s.word index.toNat) s

end Sys2Proof.Machine
end

