-- ==== Sys2Proof/Machine/Dispatch.lean ====
section
/-! DEFINITION. One arm per command. -/
namespace Sys2Proof.Machine

/-- The command's meaning applied to the state (30_encoding.md R73). -/
def exec (i : Instr) (s : State) : Host.Outcome State Fault Refusal :=
  match i with
  | .new width => Sys2Proof.Machine.execNew width s
  | .withCapacity width n => Sys2Proof.Machine.execWithCapacity width n s
  | .len => Sys2Proof.Machine.execLen s
  | .capacity => Sys2Proof.Machine.execCapacity s
  | .push value => Sys2Proof.Machine.execPush value s
  | .get index => Sys2Proof.Machine.execGet index s
  | .getUnchecked index => Sys2Proof.Machine.execGetUnchecked index s
  | .set index value => Sys2Proof.Machine.execSet index value s
  | .setUnchecked index value => Sys2Proof.Machine.execSetUnchecked index value s
  | .iter slot => Sys2Proof.Machine.execIter slot s
  | .intoIter slot => Sys2Proof.Machine.execIntoIter slot s
  | .iterNext slot => Sys2Proof.Machine.execIterNext slot s
  | .iterDrop slot => Sys2Proof.Machine.execIterDrop slot s
  | .rdreg number => Sys2Proof.Machine.execRdreg number s
  | .rdword index => Sys2Proof.Machine.execRdword index s

end Sys2Proof.Machine
end

