-- ==== Sys2Proof/Machine/Step.lean ====
section
/-! DEFINITION. One step: the block takes the host's next act (30_encoding.md R70, 20_memory.md R63). -/
namespace Sys2Proof.Machine

/-- One command, after its acceptance: the decoded instruction's meaning, or E_ILLEGAL for an illegal word
(30_encoding.md R77). -/
def runCommand (c : Command) (s : State) : Host.Outcome State Fault Refusal :=
  match decode c with
  | some i => exec i s
  | none   => raise .eIllegal s

/-- One step. With no act of the host's the block "is idle and keeps all its state" (60_exceptions.md R225). -/
def step (s : State) : Host.Outcome State Fault Refusal :=
  match s.inputs with
  | []                      => .next s
  | .command c :: rest      => runCommand c (s.accept rest)
  | .takeResponse :: rest   => .next (s.accept rest)
  | .reset contents :: rest => .next ((s.takeInput rest).applyReset contents)

/-- The state with one command placed first among the host's acts, so that the next step runs it (log entry 5). -/
def State.withFetchWord (s : State) (nbits w : Nat) : State :=
  { s with inputs := .command (Command.ofBits (w % 2 ^ nbits)) :: s.inputs }

end Sys2Proof.Machine
end

