-- ==== Sys2Proof/Safety.lean ====
section
/-! DEFINITION. The invariant of the block (10_state.md R28 to R32, R39), and the terms in which claims say what a command
answers, what it leaves unchanged, and what no command can observe. -/
namespace Sys2Proof.Machine

/-! ## The invariant -/

/-- The array's counts, while one exists: WCOUNT = ceil(LENGTH * N / 32) (R29) and WCOUNT <= WRESV <= W_MAX (R30). -/
abbrev ArrayInv (s : State) : Prop :=
  s.valid = true →
    s.wcount.toNat = (s.length.toNat * s.width + 31) / 32 ∧
    s.wcount.toNat ≤ s.wresv.toNat ∧ s.wresv.toNat ≤ s.wMax

/-- Without an array every array register is 0 and every slot IDLE (R32, 42_iteration.md R163). -/
abbrev NoArrayInv (s : State) : Prop :=
  s.valid = false →
    s.nm1 = 0 ∧ s.length = 0 ∧ s.wcount = 0 ∧ s.wresv = 0 ∧ ∀ k, (s.slot k).state = .idle

/-- The slots: an owner is the only iterator; an open cursor is at most LENGTH; an idle slot's cursor is 0 (R38, R39). -/
abbrev SlotInv (s : State) : Prop :=
  (∀ j k, (s.slot j).state = .own → (s.slot k).state ≠ .idle → j = k) ∧
  (∀ k, (s.slot k).state ≠ .idle → (s.slot k).cur ≤ s.length) ∧
  (∀ k, (s.slot k).state = .idle → (s.slot k).cur = 0)

/-- The storage is in its canonical form and lists words that exist only (20_memory.md R50). -/
abbrev StorageInv (s : State) : Prop :=
  s.storage.wf ∧ ∀ c ∈ s.storage, c.1 < s.wMax

/-- RESULT is 0 unless STATUS is OK (R35); an error in STATUS is recorded in ERRLOG (R34); a pending response is the last
command's (60_exceptions.md R203). -/
abbrev ConditionInv (s : State) : Prop :=
  (s.status ≠ .ok → s.result = 0) ∧
  (2 ≤ s.status.code.toNat → s.errlogWord.getLsbD s.status.code.toNat = true) ∧
  (s.rsp = none ∨ s.rsp = some ⟨s.status, s.result⟩)

/-- What every step keeps. -/
abbrev BlockInv (s : State) : Prop :=
  ArrayInv s ∧ NoArrayInv s ∧ SlotInv s ∧ StorageInv s ∧ ConditionInv s

/-- The slack bits are zero: those of allocated words at or above storage bit LENGTH * N (R31). -/
def SlackZero (s : State) : Prop :=
  ∀ b, s.length.toNat * s.width ≤ b → b < 32 * s.wcount.toNat → s.storageBit b = false

/-! ## What a command answers, and what it leaves unchanged -/

/-- The block-state premises of the command rules, said of the slots. -/
abbrev NotMoved (s : State) : Prop := ∀ k, (s.slot k).state ≠ .own
abbrev AllIdle (s : State) : Prop := ∀ k, (s.slot k).state = .idle

/-- Command `i` in state `s` completes in state `t` with the response `(st, r)`: STATUS, RESULT and the response are these,
ERRLOG gains the bit of an error and keeps every other, and nothing of the host's is touched (60 R203). -/
def Answers (i : Instr) (s : State) (st : Status) (r : Word) (t : State) : Prop :=
  exec i s = .next t ∧
  t.status = st ∧ t.result = r ∧ t.rsp = some ⟨st, r⟩ ∧
  (∀ b, t.errlogWord.getLsbD b = (s.errlogWord.getLsbD b || decide (2 ≤ b ∧ b = st.code.toNat))) ∧
  t.params = s.params ∧ t.inputs = s.inputs ∧ t.delivered = s.delivered

/-- CFG, LENGTH, WCOUNT and WRESV are as before. -/
def SameArrayRegs (s t : State) : Prop :=
  t.nm1 = s.nm1 ∧ t.valid = s.valid ∧ t.length = s.length ∧ t.wcount = s.wcount ∧ t.wresv = s.wresv

/-- Every word of the storage reads as before. -/
def SameWords (s t : State) : Prop := ∀ k, t.word k = s.word k

/-- Every slot is as before. -/
def SameSlots (s t : State) : Prop := ∀ k, t.slot k = s.slot k

/-- Nothing but the condition state is written. -/
def SameBlock (s t : State) : Prop := SameArrayRegs s t ∧ SameWords s t ∧ SameSlots s t

/-- Command `i` completes OK with result `r` and writes nothing else. -/
def ReadsValue (i : Instr) (s : State) (r : Word) : Prop := ∃ t, Answers i s .ok r t ∧ SameBlock s t

/-- Command `i` ends with status `st` and result 0 and writes nothing else. -/
def EndsWith (i : Instr) (s : State) (st : Status) : Prop := ∃ t, Answers i s st 0 t ∧ SameBlock s t

/-- `r` is element `i`: bit `j` of it is storage bit `i * N + j` for `j < N`, and 0 above (20_memory.md R52). -/
def IsElement (s : State) (i : Nat) (r : Word) : Prop :=
  ∀ j, r.getLsbD j = (decide (j < s.width) && s.storageBit (i * s.width + j))

/-! ## What no command observes -/

/-- `t` differs from `s` only in storage words that are not allocated (10_state.md R27, R41 c). -/
def DiffersOnlyInHiddenWords (s t : State) : Prop :=
  t = { s with storage := t.storage } ∧ ∀ k, k < s.wcount.toNat → t.word k = s.word k

/-! ## The spec's tables of errors, as the claims use them -/

/-- The commands that need an array (60_exceptions.md R206, rows 2 to 5). -/
def needsArray : Instr → Bool
  | .len | .capacity | .push _ | .get _ | .getUnchecked _ | .set _ _ | .setUnchecked _ _ | .iter _ | .intoIter _ => true
  | .new _ | .withCapacity _ _ | .iterNext _ | .iterDrop _ | .rdreg _ | .rdword _ => false

/-- The commands that write the array or move it (R206, rows 3 and 5). -/
def writesOrMoves : Instr → Bool
  | .push _ | .set _ _ | .setUnchecked _ _ | .intoIter _ => true
  | .new _ | .withCapacity _ _ | .len | .capacity | .get _ | .getUnchecked _ | .iter _ | .iterNext _ | .iterDrop _
  | .rdreg _ | .rdword _ => false

/-- The cause of each error status of a decoded command (60 R201). E_ILLEGAL of a command word is the decoder's. -/
def errorCause (i : Instr) (s : State) : Status → Bool
  | .ok | .absent => false
  | .eRange =>
    match i with
    | .push v | .set _ v | .setUnchecked _ v => decide (2 ^ s.width - 1 < v.toNat)
    | _ => false
  | .eBounds =>
    match i with
    | .set a _ => decide (s.length.toNat ≤ a.toNat)
    | _ => false
  | .eOob =>
    match i with
    | .getUnchecked a | .setUnchecked a _ => !s.inStorage a.toNat
    | .rdword a => decide (s.wcount.toNat ≤ a.toNat)
    | _ => false
  | .eIllegal =>
    match i with
    | .rdreg a => !(decide (a.toNat ≤ 0x07) || decide (0x10 ≤ a.toNat ∧ a.toNat ≤ 0x17))
    | _ => false
  | .eNoArray => needsArray i && !s.valid
  | .eBorrowed => writesOrMoves i && s.borrowed
  | .eMoved => needsArray i && s.moved
  | .eSlot =>
    match i with
    | .iter k | .intoIter k => decide ((s.slot k).state ≠ .idle)
    | .iterNext k | .iterDrop k => decide ((s.slot k).state = .idle)
    | _ => false
  | .eNoMem =>
    match i with
    | .withCapacity n a => decide (32 * s.wMax < n * a.toNat)
    | .push _ => decide (32 * s.wcount.toNat < (s.length.toNat + 1) * s.width) && decide (s.wcount.toNat = s.wMax)
    | _ => false
  | .eBusy =>
    match i with
    | .new _ | .withCapacity _ _ => s.anyIter
    | _ => false

/-- The order in which causes are reported (60 R205, items 1 to 10). -/
def checkOrder : Instr → List Status
  | .setUnchecked _ _ => [.eIllegal, .eSlot, .eBusy, .eNoArray, .eMoved, .eBorrowed, .eRange, .eOob, .eNoMem]
  | _ => [.eIllegal, .eSlot, .eBusy, .eNoArray, .eMoved, .eBorrowed, .eBounds, .eOob, .eRange, .eNoMem]

/-- GET and ITER_NEXT have no value to return (60 R200, status 1). -/
def isAbsent (i : Instr) (s : State) : Bool :=
  match i with
  | .get a => decide (s.length.toNat ≤ a.toNat)
  | .iterNext k => decide (s.length.toNat ≤ (s.slot k).cur.toNat)
  | _ => false

/-- The status R205 has command `i` report: the first cause in order, else ABSENT or OK. -/
def reported (i : Instr) (s : State) : Status :=
  match (checkOrder i).find? (errorCause i s) with
  | some e => e
  | none => if isAbsent i s then .absent else .ok

/-- The column "raised by" of R200, read by command: the statuses besides OK. -/
def mayRaise : Instr → List Status
  | .new _            => [.eBusy]
  | .withCapacity _ _ => [.eNoMem, .eBusy]
  | .len              => [.eNoArray, .eMoved]
  | .capacity         => [.eNoArray, .eMoved]
  | .push _           => [.eRange, .eNoArray, .eBorrowed, .eMoved, .eNoMem]
  | .get _            => [.absent, .eNoArray, .eMoved]
  | .getUnchecked _   => [.eOob, .eNoArray, .eMoved]
  | .set _ _          => [.eRange, .eBounds, .eNoArray, .eBorrowed, .eMoved]
  | .setUnchecked _ _ => [.eRange, .eOob, .eNoArray, .eBorrowed, .eMoved]
  | .iter _           => [.eNoArray, .eMoved, .eSlot]
  | .intoIter _       => [.eNoArray, .eBorrowed, .eMoved, .eSlot]
  | .iterNext _       => [.absent, .eSlot]
  | .iterDrop _       => [.eSlot]
  | .rdreg _          => [.eIllegal]
  | .rdword _         => [.eOob]

/-! ## Sequences of commands -/

/-- `t` is the state after pushing the values in order from `s`, every PUSH completing OK. -/
def PushesOk : List Word → State → State → Prop
  | [], s, t => s = t
  | v :: vs, s, t => ∃ m, exec (.push v) s = .next m ∧ m.status = .ok ∧ PushesOk vs m t

/-- The responses of commands executed in order from `s`; none if one of them stops the machine. -/
def responsesOf : List Instr → State → Option (List Response)
  | [], _ => some []
  | i :: is, s =>
    match exec i s with
    | .next t => (responsesOf is t).map fun rs => ⟨t.status, t.result⟩ :: rs
    | _       => none

/-- The responses of a host's commands executed in order from `s`, illegal words among them (30_encoding.md R77). -/
def portResponses : List Command → State → Option (List Response)
  | [], _ => some []
  | c :: cs, s =>
    match runCommand c s with
    | .next t => (portResponses cs t).map fun rs => ⟨t.status, t.result⟩ :: rs
    | _       => none

end Sys2Proof.Machine
end

