-- ==== Sys2Proof/Certificates/Slice0/Obligations.lean ====
section
/-! DEFINITION. The statements about the model, from the numbered rules of spec/. The predicates they are written with are those
of Safety.lean. -/
open Sys2Proof Sys2Proof.Machine

/-! ## Reset, the invariant, and runs -/

/-- 70_reset_and_hazards.md R240: after reset, at power-up and from every state, every piece of state has the value of the
table. The storage may hold any words (93_implementation_defined.md U14), and two resets that differ in them differ in
words that are not observable only (10_state.md R27, HiddenWordsAreNeverObserved). -/
def Obligations.ResetLeavesTheStateOfR240 : Prop :=
  let AtReset (s : State) : Prop :=
    s.nm1 = 0 ∧ s.valid = false ∧ s.cfgWord = 0 ∧ s.length = 0 ∧ s.wcount = 0 ∧ s.wresv = 0 ∧
    s.status = .ok ∧ s.status.code = 0 ∧ s.errlogWord = 0 ∧ s.result = 0 ∧
    (∀ k, (s.slot k).state = .idle ∧ (s.slot k).state.code = 0 ∧ (s.slot k).cur = 0) ∧ s.rsp = none
  (∀ p, AtReset (State.resetAt p)) ∧ AtReset State.reset ∧
  (∀ (s : State) contents, AtReset (s.applyReset contents)) ∧
  (∀ (s : State) (m : Storage), m.wf → (∀ c ∈ m, c.1 < s.wMax) → ∃ contents, (s.applyReset contents).storage = m) ∧
  ∀ (s : State) (c d : List (Nat × Word)), DiffersOnlyInHiddenWords (s.applyReset c) (s.applyReset d)

/-- The reset state meets the invariant and has no set slack bit, at every W_MAX and GROW. -/
def Obligations.ResetMeetsTheInvariant : Prop :=
  ∀ p, BlockInv (State.resetAt p) ∧ SlackZero (State.resetAt p)

/-- Every step keeps the invariant of 10_state.md R28 to R30, R32 and R39, the storage's canonical form and the
condition state's relations. R28's inequality is a clause of its own. -/
def Obligations.StepKeepsTheInvariant : Prop :=
  (∀ s t, BlockInv s → step s = .next t → BlockInv t) ∧
  ∀ s, BlockInv s → s.valid = true → s.length.toNat * s.width ≤ s.wcount.toNat * 32

/-- 60_exceptions.md R204, "There is no halted or faulted state of the block": from a state that meets the invariant, a run of
any length goes on, and ends in such a state. -/
def Obligations.RunsNeverStop : Prop :=
  ∀ (n : Nat) (s : State), BlockInv s → ∃ t : State, Host.Core.run Sys2Proof.core n s = .next t ∧ BlockInv t

/-! ## Encoding -/

/-- Decoding an encoded well-formed instruction gives it back, with every operand. -/
def Obligations.DecodeOfEncodeIsTheInstruction : Prop :=
  ∀ i : Instr, i.wellFormed = true → decode (encode i) = some i

/-- A decoded instruction is well-formed, and its encoding is the word it was decoded from: every legal word has one meaning. -/
def Obligations.EncodeOfDecodeIsTheWord : Prop :=
  ∀ c i, decode c = some i → i.wellFormed = true ∧ (encode i).word = c.word

/-- 30_encoding.md R74 and R75: a word selects a row by match and mask, and decodes to that row's command with the fields and
operands of R75; a word that selects no row decodes to nothing. R74's examples stand last. -/
def Obligations.WordsDecodeByTheirRows : Prop :=
  (∀ c : Command,
    (c.word &&& 0xFFFFE0FF = 0x00000001 → decode c = some (.new (c.word.toNat / 256 % 32 + 1))) ∧
    (c.word &&& 0xFFFFE0FF = 0x00000002 → decode c = some (.withCapacity (c.word.toNat / 256 % 32 + 1) c.a)) ∧
    (c.word = 0x00000003 → decode c = some .len) ∧
    (c.word = 0x00000004 → decode c = some .capacity) ∧
    (c.word = 0x00000005 → decode c = some (.push c.b)) ∧
    (c.word = 0x00000006 → decode c = some (.get c.a)) ∧
    (c.word = 0x00000007 → decode c = some (.getUnchecked c.a)) ∧
    (c.word = 0x00000008 → decode c = some (.set c.a c.b)) ∧
    (c.word = 0x00000009 → decode c = some (.setUnchecked c.a c.b)) ∧
    (∀ k : SlotId, k.val = c.word.toNat / 16 % 4 →
      (c.word &&& 0xFFFFFFCF = 0x0000000A → decode c = some (.iter k)) ∧
      (c.word &&& 0xFFFFFFCF = 0x0000000B → decode c = some (.intoIter k)) ∧
      (c.word &&& 0xFFFFFFCF = 0x0000000C → decode c = some (.iterNext k)) ∧
      (c.word &&& 0xFFFFFFCF = 0x0000000D → decode c = some (.iterDrop k))) ∧
    (c.word = 0x0000000E → decode c = some (.rdreg c.a)) ∧
    (c.word = 0x0000000F → decode c = some (.rdword c.a)) ∧
    ((∀ r ∈ opcodeRows, c.word &&& r.mask ≠ r.pattern) → decode c = none)) ∧
  ∀ a b : Word, decode ⟨0x00000801, a, b⟩ = some (.new 9) ∧ decode ⟨0x00001F01, a, b⟩ = some (.new 32) ∧
    decode ⟨0x00000702, a, b⟩ = some (.withCapacity 8 a) ∧ decode ⟨0x0000002C, a, b⟩ = some (.iterNext 2)

/-- Words of 95_test_vectors.md section 2.2 and of R74, written out, decode to their commands, and the illegal ones to none. -/
def Obligations.ListedWordsDecodeAsListed : Prop :=
  decode ⟨0b00000000000000000000100000000001, 0, 0⟩ = some (.new 9) ∧
  decode ⟨0b00000000000000000001111100000010, 7, 0⟩ = some (.withCapacity 32 7) ∧
  decode ⟨0b00000000000000000000000000000101, 1, 2⟩ = some (.push 2) ∧
  decode ⟨0b00000000000000000000000000001000, 1, 2⟩ = some (.set 1 2) ∧
  decode ⟨0b00000000000000000000000000111010, 0, 0⟩ = some (.iter 3) ∧
  decode ⟨0b00000000000000000000000000011101, 0, 0⟩ = some (.iterDrop 1) ∧
  decode ⟨0b00000000000000000000000000001110, 6, 0⟩ = some (.rdreg 6) ∧
  decode ⟨0, 0, 0⟩ = none ∧ decode ⟨0x811, 0, 0⟩ = none ∧ decode ⟨0x803, 0, 0⟩ = none ∧
  decode ⟨0x841, 0, 0⟩ = none ∧ decode ⟨0x2005, 0, 0⟩ = none ∧ decode ⟨0x10C, 0, 0⟩ = none

/-- 30_encoding.md R77: which command words are illegal; such a command completes with E_ILLEGAL and changes nothing but STATUS,
RESULT and ERRLOG. -/
def Obligations.IllegalWordsCompleteWithEIllegal : Prop :=
  let IllegalWord (w : Nat) : Prop :=
    w % 16 = 0 ∨ w / 8192 ≠ 0 ∨ w / 64 % 4 ≠ 0 ∨
    (w / 16 % 4 ≠ 0 ∧ ¬ (w % 16 = 0xA ∨ w % 16 = 0xB ∨ w % 16 = 0xC ∨ w % 16 = 0xD)) ∨
    (w / 256 % 32 ≠ 0 ∧ ¬ (w % 16 = 0x1 ∨ w % 16 = 0x2))
  IllegalWord 0 ∧
  (∀ c : Command, decode c = none ↔ IllegalWord c.word.toNat) ∧
  ∀ (c : Command) (s : State), IllegalWord c.word.toNat →
    ∃ t, runCommand c s = .next t ∧ t.status = .eIllegal ∧ t.result = 0 ∧ t.rsp = some ⟨.eIllegal, 0⟩ ∧
      (∀ b, t.errlogWord.getLsbD b = (s.errlogWord.getLsbD b || decide (b = 5))) ∧
      SameBlock s t ∧ t.params = s.params ∧ t.inputs = s.inputs ∧ t.delivered = s.delivered

/-- 30_encoding.md R76: an operand the command does not use has no effect, whatever its value, and no operand makes a command
illegal. R73 gives the operands each OP uses: A for WITH_CAPACITY, GET, GET_UNCHECKED, SET, SET_UNCHECKED, RDREG and
RDWORD; B for PUSH, SET and SET_UNCHECKED. -/
def Obligations.UnusedOperandsHaveNoEffect : Prop :=
  (∀ (w a b a' b' : Word),
    (w.toNat % 16 ∈ [0x2, 0x6, 0x7, 0x8, 0x9, 0xE, 0xF] → a = a') →
    (w.toNat % 16 ∈ [0x5, 0x8, 0x9] → b = b') →
    decode ⟨w, a, b⟩ = decode ⟨w, a', b'⟩ ∧ ∀ s : State, runCommand ⟨w, a, b⟩ s = runCommand ⟨w, a', b'⟩ s) ∧
  ∀ (w a b a' b' : Word), decode ⟨w, a, b⟩ = none → decode ⟨w, a', b'⟩ = none

/-! ## Steps -/

/-- A step with a legal command first among the host's acts is `exec` of its instruction in the state after the acceptance, which
moves a pending response to the delivered ones and changes nothing else; the other kinds of step stand beside it: an
illegal command, the taking of a response, a reset, and none. The form of the port and what a reset spares are the
model's (log entries 5 to 7). -/
def Obligations.StepRunsTheDecodedCommand : Prop :=
  (∀ s c rest i, s.inputs = .command c :: rest → decode c = some i → step s = exec i (s.accept rest)) ∧
  (∀ s c rest, s.inputs = .command c :: rest → decode c = none → step s = raise .eIllegal (s.accept rest)) ∧
  (∀ (s : State) rest, s.accept rest = { s with inputs := rest, rsp := none, delivered := s.delivered ++ s.rsp.toList }) ∧
  (∀ s rest, s.inputs = .takeResponse :: rest → step s = .next (s.accept rest)) ∧
  (∀ s contents rest, s.inputs = .reset contents :: rest →
    ∃ t, step s = .next t ∧ t = (s.applyReset contents).takeInput rest ∧ t.params = s.params ∧
      t.delivered = s.delivered) ∧
  ∀ s, s.inputs = [] → step s = .next s

/-- 30_encoding.md R71, "Responses come in command order", and 10_state.md R21: a host that presents commands and takes the
last response has been delivered exactly one response per command, in order, with what each command answers. The host as a
list of acts is the model's (log entry 5, DESIGN CHOICE). The host takes only the last response here: that every earlier one
is delivered when the next command is accepted is the model's reading of R71 (log entry 6, DEDUCED, unsafe). -/
def Obligations.ResponsesComeInCommandOrder : Prop :=
  ∀ (cs : List Command) (s : State), BlockInv s → s.rsp = none → s.inputs = cs.map Input.command ++ [.takeResponse] →
    ∃ (t : State) (rs : List Response), Host.Core.run Sys2Proof.core (cs.length + 1) s = .next t ∧
      portResponses cs s = some rs ∧ rs.length = cs.length ∧ t.delivered = s.delivered ++ rs ∧
      t.rsp = none ∧ t.inputs = []

/-! ## Completion and errors -/

/-- 60_exceptions.md R203: what completion writes, that every command's step ends with it, and that a command that completes with
a status of 2 or above writes nothing else. -/
def Obligations.CompletionWritesTheConditionState : Prop :=
  (∀ (s : State) (st : Status) (r : Word),
    let t := s.complete st r
    t.status = st ∧ t.result = (if st = .ok then r else 0) ∧
    t.rsp = some ⟨st, if st = .ok then r else 0⟩ ∧
    (∀ b, t.errlogWord.getLsbD b = (s.errlogWord.getLsbD b || decide (2 ≤ b ∧ b = st.code.toNat))) ∧
    SameBlock s t ∧ t.params = s.params ∧ t.inputs = s.inputs ∧ t.delivered = s.delivered) ∧
  (∀ (c : Command) s t, runCommand c s = .next t → ∃ (u : State) (st : Status) (r : Word), t = u.complete st r) ∧
  ∀ (c : Command) s t, runCommand c s = .next t → 2 ≤ t.status.code.toNat →
    t = s.complete t.status 0 ∧ SameBlock s t

/-- 10_state.md R33 and R35: after every command STATUS is its status code and RESULT its result, 0 for every status but OK;
RDREG of either returns the value before it; both are 0 at reset. -/
def Obligations.StatusAndResultHoldTheLastResponse : Prop :=
  (∀ (c : Command) s t, runCommand c s = .next t →
    t.rsp = some ⟨t.status, t.result⟩ ∧ (t.status ≠ .ok → t.result = 0)) ∧
  (∀ s, ReadsValue (.rdreg 0x05) s (BitVec.ofNat 32 s.status.code.toNat) ∧ ReadsValue (.rdreg 0x07) s s.result) ∧
  ∀ p, (State.resetAt p).status.code = 0 ∧ (State.resetAt p).result = 0

/-- 10_state.md R34 (and 70_reset_and_hazards.md R243): a completion with status k >= 2 sets bit k of ERRLOG and no other; OK and
ABSENT set none; no step but a reset clears one; bits 1:0 and 31:12 read 0; RDREG returns the value before it; 0 at
reset. -/
def Obligations.ErrlogRecordsErrorsUntilReset : Prop :=
  (∀ (c : Command) s t, runCommand c s = .next t →
    ∀ b, t.errlogWord.getLsbD b = (s.errlogWord.getLsbD b || decide (2 ≤ b ∧ b = t.status.code.toNat))) ∧
  (∀ s t, step s = .next t → (∀ contents rest, s.inputs ≠ .reset contents :: rest) →
    ∀ b, s.errlogWord.getLsbD b = true → t.errlogWord.getLsbD b = true) ∧
  (∀ (s : State) b, b < 2 ∨ 12 ≤ b → s.errlogWord.getLsbD b = false) ∧
  (∀ s, ReadsValue (.rdreg 0x06) s s.errlogWord) ∧
  (∀ s t contents rest, s.inputs = .reset contents :: rest → step s = .next t → t.errlogWord = 0) ∧
  ∀ p, (State.resetAt p).errlogWord = 0

/-- 60_exceptions.md R200: the codes of the statuses, and that each command ends with OK or a status the table says it raises.
E_ILLEGAL is also raised by a command word (IllegalWordsCompleteWithEIllegal). -/
def Obligations.StatusesComeFromTheirCommands : Prop :=
  [Status.ok, .absent, .eRange, .eBounds, .eOob, .eIllegal, .eNoArray, .eBorrowed, .eMoved, .eSlot, .eNoMem, .eBusy].map
    (fun st => st.code.toNat) = List.range 12 ∧
  ∀ i s t, exec i s = .next t → t.status = .ok ∨ t.status ∈ mayRaise i

/-- 60_exceptions.md R201 and R205: a command reports the first of its causes in the fixed order, an illegal command word first of
all, and ABSENT or OK when none holds. -/
def Obligations.CommandsReportTheirFirstCause : Prop :=
  (∀ (c : Command) s, decode c = none → ∃ t, runCommand c s = .next t ∧ t.status = .eIllegal) ∧
  ∀ (c : Command) i s, BlockInv s → decode c = some i → ∃ t, runCommand c s = .next t ∧ t.status = reported i s

/-- 60_exceptions.md R206: the refusals of each command in each array state, and that in the other cells the command goes on to
its operand checks. -/
def Obligations.RefusalsFollowTheOwnershipTable : Prop :=
  let GoesOn (i : Instr) (s : State) : Prop :=
    ∀ t, exec i s = .next t → t.status ∉ [Status.eBusy, .eNoArray, .eMoved, .eBorrowed]
  ∀ (s : State) (n : Nat) (a v : Word) (k : SlotId), BlockInv s →
    (s.valid = false → (s.slot k).state = .idle ∧
      (∀ i ∈ [Instr.len, .capacity, .get a, .getUnchecked a, .push v, .set a v, .setUnchecked a v, .iter k, .intoIter k],
        EndsWith i s .eNoArray) ∧ GoesOn (.new n) s ∧ GoesOn (.withCapacity n a) s) ∧
    (s.valid = true → AllIdle s →
      ∀ i ∈ [Instr.new n, .withCapacity n a, .len, .capacity, .get a, .getUnchecked a, .push v, .set a v,
        .setUnchecked a v, .iter k, .intoIter k], GoesOn i s) ∧
    (s.borrowed = true → EndsWith (.new n) s .eBusy ∧ EndsWith (.withCapacity n a) s .eBusy ∧
      (∀ i ∈ [Instr.len, .capacity, .get a, .getUnchecked a], GoesOn i s) ∧
      (∀ i ∈ [Instr.push v, .set a v, .setUnchecked a v], EndsWith i s .eBorrowed) ∧
      ((s.slot k).state = .idle → GoesOn (.iter k) s ∧ EndsWith (.intoIter k) s .eBorrowed)) ∧
    (s.moved = true → EndsWith (.new n) s .eBusy ∧ EndsWith (.withCapacity n a) s .eBusy ∧
      (∀ i ∈ [Instr.len, .capacity, .get a, .getUnchecked a, .push v, .set a v, .setUnchecked a v],
        EndsWith i s .eMoved) ∧
      ((s.slot k).state = .idle → EndsWith (.iter k) s .eMoved ∧ EndsWith (.intoIter k) s .eMoved)) ∧
    GoesOn (.iterNext k) s ∧ GoesOn (.iterDrop k) s ∧ GoesOn (.rdreg a) s ∧ GoesOn (.rdword a) s

/-- 60_exceptions.md R204: an error stops nothing: the next command executes as if the failed one had not been sent, except for
STATUS, RESULT and ERRLOG (so RDREG of those three is set apart). -/
def Obligations.FailedCommandsLeaveTheNextAsItWas : Prop :=
  ∀ (c : Command) j s m, BlockInv s → runCommand c s = .next m → 2 ≤ m.status.code.toNat →
    j ≠ .rdreg 0x05 → j ≠ .rdreg 0x06 → j ≠ .rdreg 0x07 →
    ∃ t u, exec j s = .next t ∧ exec j m = .next u ∧
      u.status = t.status ∧ u.result = t.result ∧ SameBlock t u

/-! ## Construction and inspection -/

/-- 40_lifecycle.md R100: NEW constructs an empty array of its width and reserves nothing; the storage words and the slots stay. -/
def Obligations.NewConstructsAnEmptyArray : Prop :=
  ∀ (n : Nat) (s : State), 1 ≤ n → n ≤ 32 → AllIdle s →
    ∃ t, Answers (.new n) s .ok 0 t ∧ t.width = n ∧ t.valid = true ∧ t.length = 0 ∧ t.wcount = 0 ∧ t.wresv = 0 ∧
      SameWords s t ∧ SameSlots s t

/-- 40_lifecycle.md R101: WITH_CAPACITY reserves exactly ceil(N * n / 32) words, the least number of words with at least N * n
bits; it fails with E_NOMEM, keeping the array, when that exceeds W_MAX, and with E_BUSY while a slot is in use. -/
def Obligations.WithCapacityReservesTheWordsNeeded : Prop :=
  ∀ (n : Nat) (a : Word) (s : State), 1 ≤ n → n ≤ 32 →
    (AllIdle s → n * a.toNat ≤ 32 * s.wMax →
      ∃ t, Answers (.withCapacity n a) s .ok 0 t ∧ t.width = n ∧ t.valid = true ∧ t.length = 0 ∧ t.wcount = 0 ∧
        n * a.toNat ≤ 32 * t.wresv.toNat ∧ 32 * t.wresv.toNat < n * a.toNat + 32 ∧
        SameWords s t ∧ SameSlots s t) ∧
    (AllIdle s → 32 * s.wMax < n * a.toNat → EndsWith (.withCapacity n a) s .eNoMem) ∧
    (¬ AllIdle s → EndsWith (.withCapacity n a) s .eBusy ∧ EndsWith (.new n) s .eBusy)

/-- 40_lifecycle.md R102: LEN returns LENGTH and changes nothing but the condition state. -/
def Obligations.LenReturnsLength : Prop :=
  ∀ s, s.valid = true → NotMoved s → ReadsValue .len s s.length

/-- 40_lifecycle.md R103: CAPACITY returns floor(WRESV * 32 / N). -/
def Obligations.CapacityReturnsTheElementsReserved : Prop :=
  ∀ s, BlockInv s → s.valid = true → NotMoved s →
    ∃ r : Word, ReadsValue .capacity s r ∧
      r.toNat * s.width ≤ s.wresv.toNat * 32 ∧ s.wresv.toNat * 32 < (r.toNat + 1) * s.width

/-- 40_lifecycle.md R103, "Capacity monotonicity": after WITH_CAPACITY N, n the capacity is at least n. -/
def Obligations.CapacityAfterWithCapacityIsEnough : Prop :=
  ∀ (n : Nat) (a : Word) (s t u : State), 1 ≤ n → n ≤ 32 →
    exec (.withCapacity n a) s = .next t → t.status = .ok → exec .capacity t = .next u →
    u.status = .ok ∧ a.toNat ≤ u.result.toNat

/-- 00_scope.md R13: GROW's law, its default, and that the model's parameter takes every value the law allows. -/
def Obligations.GrowObeysItsLaw : Prop :=
  (∀ (s : State) (c need : Nat), need ≤ s.wMax → need ≤ s.grow c need ∧ s.grow c need ≤ s.wMax) ∧
  (∀ (s : State) (c need : Nat), s.params.growPoints = [] → need ≤ s.wMax →
    s.grow c need = min s.wMax (max need (max (2 * c) 4))) ∧
  ∀ (s : State) (c need v : Nat), need ≤ v → v ≤ s.wMax →
    ∃ points, { s with params := { s.params with growPoints := points } }.grow c need = v

/-! ## Elements in the storage -/

/-- 41_element_access.md R121: `in_storage(i)` holds exactly when every word element i touches is below WCOUNT, by the location
function of R17; WRESV is not compared against. -/
def Obligations.InStorageMeansEveryWordIsAllocated : Prop :=
  ∀ (s : State) (i : Nat),
    (s.inStorage i = true ↔ ∀ j, j < s.width → (i * s.width + j) / 32 < s.wcount.toNat) ∧
    (s.inStorage i = true ↔
      if 32 - i * s.width % 32 < s.width then i * s.width / 32 + 1 < s.wcount.toNat
      else i * s.width / 32 < s.wcount.toNat) ∧
    ∀ r : Word, ({ s with wresv := r } : State).inStorage i = s.inStorage i

/-- 20_memory.md R52: storage bit b is bit b % 32 of word b / 32, and element i occupies bits i*N to i*N + N - 1 with its least
significant bit lowest. So `extract(i)` (R124) is these N bits, zero-extended, and below 2^N. -/
def Obligations.ExtractReadsTheElementsBits : Prop :=
  (∀ (s : State) b, s.storageBit b = (s.word (b / 32)).getLsbD (b % 32)) ∧
  ∀ (s : State) (i : Nat), IsElement s i (s.extract i) ∧ (s.extract i).toNat < 2 ^ s.width

/-- 41_element_access.md R122: `or_field(i, v)` ORs the bits of v into element i's position and leaves every other bit. -/
def Obligations.OrFieldOrsIntoTheElementsBits : Prop :=
  ∀ (s : State) (i : Nat) (v : Word), v.toNat < 2 ^ s.width →
    ∀ b, (s.orField i v).storageBit b =
      (s.storageBit b || (decide (i * s.width ≤ b ∧ b < i * s.width + s.width) && v.getLsbD (b - i * s.width)))

/-- 41_element_access.md R123 and R141: `write_field(i, v)` replaces element i's N bits with v and leaves every other bit of
storage as it was. -/
def Obligations.WriteFieldReplacesTheElementsBits : Prop :=
  ∀ (s : State) (i : Nat) (v : Word), v.toNat < 2 ^ s.width →
    ∀ b, (s.writeField i v).storageBit b =
      if i * s.width ≤ b ∧ b < i * s.width + s.width then v.getLsbD (b - i * s.width) else s.storageBit b

/-! ## Element access -/

/-- 41_element_access.md R120: a PUSH that nothing forbids appends one element. LENGTH counts it; a word is allocated exactly
when its bits need one; the reservation grows by GROW when it is exceeded; the value is ORed onto what its allocated
bits held, and the rest of a new word is zero; every other bit stays. A PUSH without room fails with E_NOMEM. -/
def Obligations.PushAppendsOneElement : Prop :=
  ∀ (s : State) (v : Word), BlockInv s → s.valid = true → AllIdle s → v.toNat < 2 ^ s.width →
    let start := s.length.toNat * s.width
    (start + s.width ≤ 32 * s.wMax →
      ∃ t, Answers (.push v) s .ok 0 t ∧ t.nm1 = s.nm1 ∧ t.valid = s.valid ∧
        t.length.toNat = s.length.toNat + 1 ∧
        t.wcount.toNat = (start + s.width + 31) / 32 ∧
        t.wresv.toNat = (if s.wresv.toNat < t.wcount.toNat then s.grow s.wresv.toNat t.wcount.toNat else s.wresv.toNat) ∧
        SameSlots s t ∧
        ∀ b, t.storageBit b =
          if start ≤ b ∧ b < start + s.width then
            (decide (b < 32 * s.wcount.toNat) && s.storageBit b) || v.getLsbD (b - start)
          else if 32 * s.wcount.toNat ≤ b ∧ b < 32 * t.wcount.toNat then false
          else s.storageBit b) ∧
    (32 * s.wMax < start + s.width → EndsWith (.push v) s .eNoMem)

/-- 41_element_access.md R120 corner case d: where the slack bits are zero, the pushed element is the value, every earlier
element stays, and the slack bits are zero again. -/
def Obligations.PushOntoCleanSlackStoresTheValue : Prop :=
  ∀ (s t : State) (v : Word), BlockInv s → SlackZero s → exec (.push v) s = .next t → t.status = .ok →
    t.extract s.length.toNat = v ∧ (∀ i, i < s.length.toNat → t.extract i = s.extract i) ∧ SlackZero t

/-- 41_element_access.md R125: GET returns the element of an index below LENGTH, and ABSENT at or above it. -/
def Obligations.GetReadsElementsOfTheArray : Prop :=
  ∀ (s : State) (a : Word), BlockInv s → s.valid = true → NotMoved s →
    (a.toNat < s.length.toNat → ∃ r, IsElement s a.toNat r ∧ ReadsValue (.get a) s r) ∧
    (s.length.toNat ≤ a.toNat → EndsWith (.get a) s .absent)

/-- 41_element_access.md R126: GET_UNCHECKED returns the bits at an index whose last bit lies in an allocated word, slack or not,
and E_OOB otherwise. -/
def Obligations.GetUncheckedReadsAllocatedBits : Prop :=
  ∀ (s : State) (a : Word), BlockInv s → s.valid = true → NotMoved s →
    ((a.toNat * s.width + (s.width - 1)) / 32 < s.wcount.toNat →
      ∃ r, IsElement s a.toNat r ∧ ReadsValue (.getUnchecked a) s r) ∧
    (s.wcount.toNat ≤ (a.toNat * s.width + (s.width - 1)) / 32 → EndsWith (.getUnchecked a) s .eOob)

/-- 41_element_access.md R130: SET replaces one element's bits and nothing else; E_BOUNDS is checked before E_RANGE. -/
def Obligations.SetReplacesOneElement : Prop :=
  ∀ (s : State) (a v : Word), BlockInv s → s.valid = true → AllIdle s →
    (a.toNat < s.length.toNat → v.toNat < 2 ^ s.width →
      ∃ t, Answers (.set a v) s .ok 0 t ∧ SameArrayRegs s t ∧ SameSlots s t ∧
        ∀ b, t.storageBit b =
          if a.toNat * s.width ≤ b ∧ b < a.toNat * s.width + s.width then v.getLsbD (b - a.toNat * s.width)
          else s.storageBit b) ∧
    (s.length.toNat ≤ a.toNat → EndsWith (.set a v) s .eBounds) ∧
    (a.toNat < s.length.toNat → 2 ^ s.width ≤ v.toNat → EndsWith (.set a v) s .eRange)

/-- 41_element_access.md R131: SET_UNCHECKED replaces the bits at an index whose words are allocated and nothing else; E_RANGE is
checked before E_OOB. -/
def Obligations.SetUncheckedReplacesAllocatedBits : Prop :=
  ∀ (s : State) (a v : Word), BlockInv s → s.valid = true → AllIdle s →
    ((a.toNat * s.width + (s.width - 1)) / 32 < s.wcount.toNat → v.toNat < 2 ^ s.width →
      ∃ t, Answers (.setUnchecked a v) s .ok 0 t ∧ SameArrayRegs s t ∧ SameSlots s t ∧
        ∀ b, t.storageBit b =
          if a.toNat * s.width ≤ b ∧ b < a.toNat * s.width + s.width then v.getLsbD (b - a.toNat * s.width)
          else s.storageBit b) ∧
    (2 ^ s.width ≤ v.toNat → EndsWith (.setUnchecked a v) s .eRange) ∧
    (s.wcount.toNat ≤ (a.toNat * s.width + (s.width - 1)) / 32 → v.toNat < 2 ^ s.width →
      EndsWith (.setUnchecked a v) s .eOob)

/-- 41_element_access.md R141, no bleed: a SET or SET_UNCHECKED of element i that completes OK changes what no other index
reads. -/
def Obligations.SetChangesNoOtherElement : Prop :=
  ∀ (s t : State) (a v : Word) (i : Instr), (i = .set a v ∨ i = .setUnchecked a v) →
    exec i s = .next t → t.status = .ok → ∀ j, j ≠ a.toNat → t.extract j = s.extract j

/-- 41_element_access.md R142: after a SET or SET_UNCHECKED that completes OK, GET_UNCHECKED returns the value, and so does GET
when the index is below LENGTH. -/
def Obligations.SetThenGetReturnsTheValue : Prop :=
  ∀ (s t : State) (a v : Word) (i : Instr), BlockInv s → (i = .set a v ∨ i = .setUnchecked a v) →
    exec i s = .next t → t.status = .ok →
    ReadsValue (.getUnchecked a) t v ∧ (a.toNat < t.length.toNat → ReadsValue (.get a) t v)

/-- 41_element_access.md R140, the round trip: values pushed in order after a constructor, every PUSH completing OK, are what GET
returns, and LEN returns their number. -/
def Obligations.PushedValuesComeBack : Prop :=
  ∀ (i : Instr) (vs : List Word) (s₀ s t : State), BlockInv s₀ → i.wellFormed = true →
    (∃ n, i = .new n ∨ ∃ a, i = .withCapacity n a) →
    exec i s₀ = .next s → s.status = .ok → PushesOk vs s t →
    (∀ (k : Nat) (h : k < vs.length), ReadsValue (.get (BitVec.ofNat 32 k)) t vs[k]) ∧
    ∃ r : Word, ReadsValue .len t r ∧ r.toNat = vs.length

/-- 10_state.md R31: no command but a SET_UNCHECKED at or above LENGTH sets a slack bit. -/
def Obligations.SlackBitsStayZero : Prop :=
  ∀ (i : Instr) (s t : State), BlockInv s → SlackZero s →
    (∀ a v, i = .setUnchecked a v → a.toNat < s.length.toNat) → exec i s = .next t → SlackZero t

/-! ## Iteration -/

/-- 42_iteration.md R160: ITER opens a borrowing iterator in an idle slot at cursor 0. -/
def Obligations.IterOpensABorrowingIterator : Prop :=
  ∀ (s : State) (k : SlotId), s.valid = true → NotMoved s → (s.slot k).state = .idle →
    ∃ t, Answers (.iter k) s .ok 0 t ∧ t.slot k = ⟨.borrow, 0⟩ ∧ (∀ j, j ≠ k → t.slot j = s.slot j) ∧
      SameArrayRegs s t ∧ SameWords s t

/-- 42_iteration.md R161: INTO_ITER moves an array no iterator holds into an owning iterator at cursor 0. -/
def Obligations.IntoIterMovesTheArray : Prop :=
  ∀ (s : State) (k : SlotId), s.valid = true → AllIdle s →
    ∃ t, Answers (.intoIter k) s .ok 0 t ∧ t.slot k = ⟨.own, 0⟩ ∧ (∀ j, j ≠ k → t.slot j = s.slot j) ∧
      SameArrayRegs s t ∧ SameWords s t

/-- 42_iteration.md R162: ITER_NEXT yields the element at the cursor and advances it; an exhausted iterator answers ABSENT and
its cursor stays; an idle slot is E_SLOT. -/
def Obligations.IterNextYieldsTheElementAtItsCursor : Prop :=
  ∀ (s : State) (k : SlotId), BlockInv s →
    ((s.slot k).state ≠ .idle → (s.slot k).cur.toNat < s.length.toNat →
      ∃ t r, IsElement s (s.slot k).cur.toNat r ∧ Answers (.iterNext k) s .ok r t ∧
        (t.slot k).state = (s.slot k).state ∧ (t.slot k).cur.toNat = (s.slot k).cur.toNat + 1 ∧
        (∀ j, j ≠ k → t.slot j = s.slot j) ∧ SameArrayRegs s t ∧ SameWords s t) ∧
    ((s.slot k).state ≠ .idle → s.length.toNat ≤ (s.slot k).cur.toNat → EndsWith (.iterNext k) s .absent) ∧
    ((s.slot k).state = .idle → EndsWith (.iterNext k) s .eSlot)

/-- 42_iteration.md R163: ITER_DROP closes the slot; a borrowing iterator leaves the array as it was, an owning one releases
it; an idle slot is E_SLOT. -/
def Obligations.IterDropClosesItsIterator : Prop :=
  ∀ (s : State) (k : SlotId),
    ((s.slot k).state ≠ .idle →
      ∃ t, Answers (.iterDrop k) s .ok 0 t ∧ t.slot k = ⟨.idle, 0⟩ ∧ (∀ j, j ≠ k → t.slot j = s.slot j) ∧
        SameWords s t ∧
        ((s.slot k).state = .borrow → SameArrayRegs s t) ∧
        ((s.slot k).state = .own →
          t.nm1 = 0 ∧ t.valid = false ∧ t.length = 0 ∧ t.wcount = 0 ∧ t.wresv = 0)) ∧
    ((s.slot k).state = .idle → EndsWith (.iterDrop k) s .eSlot)

/-- 10_state.md R39: while a slot stays open no command changes LENGTH, the width or any element, and only its own ITER_NEXT
moves its cursor. -/
def Obligations.OpenIteratorsFixTheArray : Prop :=
  ∀ (i : Instr) (s t : State) (k : SlotId), BlockInv s → (s.slot k).state ≠ .idle → i ≠ .iterDrop k →
    exec i s = .next t →
    t.length = s.length ∧ t.width = s.width ∧ (t.slot k).state = (s.slot k).state ∧
    (∀ e, e < s.length.toNat → t.extract e = s.extract e) ∧ (i ≠ .iterNext k → t.slot k = s.slot k)

/-- 42_iteration.md R164: the ITER_NEXTs of a slot, in order, answer what GET 0, GET 1, ... answered when it was opened, ABSENT
from LENGTH on, whatever other instructions but the slot's ITER_DROP run between them. An illegal command word is no
instruction; `IllegalWordsCompleteWithEIllegal` says it leaves the slot and the array as they are. -/
def Obligations.IterationYieldsTheElementsInOrder : Prop :=
  ∀ (k : SlotId) (s₀ s : State) (is : List Instr) (rs : List Response), BlockInv s₀ →
    (exec (.iter k) s₀ = .next s ∨ exec (.intoIter k) s₀ = .next s) → s.status = .ok →
    (∀ i ∈ is, i ≠ .iterDrop k) → responsesOf is s = some rs →
    ∀ (m : Nat) (q : Instr × Response), m < 2 ^ 32 →
      ((is.zip rs).filter fun p => p.1 == Instr.iterNext k)[m]? = some q →
      ∃ g, exec (.get (BitVec.ofNat 32 m)) s₀ = .next g ∧ q.2 = ⟨g.status, g.result⟩

/-- 42_iteration.md R165: after ITER_DROP of an OWN slot no command reaches the array: every array command answers E_NOARRAY,
and RDWORD of every index E_OOB. -/
def Obligations.ReleasedArraysAreUnreachable : Prop :=
  ∀ (s t : State) (k : SlotId), BlockInv s → (s.slot k).state = .own → exec (.iterDrop k) s = .next t →
    t.length = 0 ∧ t.wcount = 0 ∧ t.valid = false ∧ AllIdle t ∧
    (∀ i, needsArray i = true → EndsWith i t .eNoArray) ∧ ∀ a, EndsWith (.rdword a) t .eOob

/-! ## Observation, and the registers -/

/-- 43_observation.md R180: what RDREG returns for each register number; a number not in the table is E_ILLEGAL; nothing but the
condition state changes. -/
def Obligations.RdregReadsTheNumberedRegister : Prop :=
  ∀ s : State,
    ReadsValue (.rdreg 0x00) s s.cfgWord ∧ ReadsValue (.rdreg 0x01) s s.length ∧
    ReadsValue (.rdreg 0x02) s s.wcount ∧ ReadsValue (.rdreg 0x03) s s.wresv ∧
    ReadsValue (.rdreg 0x04) s (if s.valid then BitVec.ofNat 32 (2 ^ s.width - 1) else 0) ∧
    ReadsValue (.rdreg 0x05) s (BitVec.ofNat 32 s.status.code.toNat) ∧
    ReadsValue (.rdreg 0x06) s s.errlogWord ∧ ReadsValue (.rdreg 0x07) s s.result ∧
    (∀ k : SlotId, ReadsValue (.rdreg (BitVec.ofNat 32 (0x10 + k.val))) s
        (match (s.slot k).state with | .idle => 0 | .borrow => 1 | .own => 2) ∧
      ReadsValue (.rdreg (BitVec.ofNat 32 (0x14 + k.val))) s (s.slot k).cur) ∧
    ∀ a : Word, (0x08 ≤ a.toNat ∧ a.toNat ≤ 0x0F) ∨ 0x18 ≤ a.toNat → EndsWith (.rdreg a) s .eIllegal

/-- 43_observation.md R181: RDWORD returns an allocated word in every array and iterator state, and E_OOB at or above WCOUNT. -/
def Obligations.RdwordReadsAllocatedWords : Prop :=
  ∀ (s : State) (a : Word),
    (s.wcount.toNat ≤ s.wMax → a.toNat < s.wcount.toNat → ReadsValue (.rdword a) s (s.word a.toNat)) ∧
    (s.wcount.toNat ≤ a.toNat → EndsWith (.rdword a) s .eOob)

/-- 10_state.md R22: the layout of CFG with its hardwired bits, N = NM1 + 1 in 1..32, and that only a constructor or the
ITER_DROP of an OWN slot writes it. -/
def Obligations.CfgHoldsTheWidthUntilConstructionOrRelease : Prop :=
  (∀ (s : State) b, s.cfgWord.getLsbD b =
    if b < 5 then s.nm1.getLsbD b else decide (b = 8) && s.valid) ∧
  (∀ s : State, s.width = s.nm1.toNat + 1 ∧ 1 ≤ s.width ∧ s.width ≤ 32) ∧
  (∀ s, ReadsValue (.rdreg 0x00) s s.cfgWord) ∧
  (∀ i s t, exec i s = .next t → t.nm1 ≠ s.nm1 ∨ t.valid ≠ s.valid →
    (∃ n, i = .new n ∨ ∃ a, i = .withCapacity n a) ∨ ∃ k, i = .iterDrop k ∧ (s.slot k).state = .own) ∧
  ∀ p, (State.resetAt p).cfgWord = 0

/-- 10_state.md R23: MAXV is derived: 2^N - 1 with an array, 0 without, 0xFFFF_FFFF for N = 32. -/
def Obligations.MaxvIsDerivedFromTheWidth : Prop :=
  (∀ s : State, s.valid = true → ∃ r : Word, ReadsValue (.rdreg 0x04) s r ∧ r.toNat = 2 ^ s.width - 1 ∧
    (s.width = 32 → r = 0xFFFFFFFF)) ∧
  ∀ s : State, s.valid = false → ReadsValue (.rdreg 0x04) s 0

/-- 10_state.md R24: LENGTH is written by the constructors (to 0), by PUSH (to LENGTH + 1) and by ITER_DROP of an OWN slot (to
0), and by no other command; 0 at reset. -/
def Obligations.LengthIsWrittenByItsFourCommands : Prop :=
  (∀ i s t, exec i s = .next t → t.status = .ok →
    ((∃ n, i = .new n ∨ ∃ a, i = .withCapacity n a) → t.length = 0) ∧
    ((∃ v, i = .push v) → t.length = s.length + 1) ∧
    ((∃ k, i = .iterDrop k ∧ (s.slot k).state = .own) → t.length = 0)) ∧
  (∀ i s t, exec i s = .next t → t.length ≠ s.length →
    (∃ n, i = .new n ∨ ∃ a, i = .withCapacity n a) ∨ (∃ v, i = .push v) ∨
    ∃ k, i = .iterDrop k ∧ (s.slot k).state = .own) ∧
  ∀ p, (State.resetAt p).length = 0

/-- 10_state.md R25 and R26: WCOUNT never decreases while the array lives and grows by PUSH only, one word at a time; WRESV
changes with it only by GROW; neither is touched by any other command but the constructors and the release. -/
def Obligations.WordCountsGrowByPushOnly : Prop :=
  ∀ (i : Instr) (s t : State), BlockInv s → exec i s = .next t →
    (∀ n, i ≠ .new n ∧ ∀ a, i ≠ .withCapacity n a) → (∀ k, i = .iterDrop k → (s.slot k).state ≠ .own) →
    s.wcount.toNat ≤ t.wcount.toNat ∧
    ((∀ v, i ≠ .push v) → t.wcount = s.wcount ∧ t.wresv = s.wresv) ∧
    ((∃ v, i = .push v) → t.wcount.toNat ≤ s.wcount.toNat + 1 ∧
      (t.wresv ≠ s.wresv → s.wcount = s.wresv ∧ t.wcount.toNat = s.wcount.toNat + 1 ∧
        t.wresv.toNat = s.grow s.wresv.toNat (s.wcount.toNat + 1)))

/-- 10_state.md R38: a slot changes only by its own iterator commands: ITER, INTO_ITER and ITER_DROP set CUR to 0, an ITER_NEXT
that yields adds 1; CUR is 0 at reset and is what RDREG 0x14 + k reads. -/
def Obligations.SlotsChangeByTheirOwnCommands : Prop :=
  (∀ (i : Instr) (s t : State) (k : SlotId), exec i s = .next t →
    (t.status = .ok → i = .iter k ∨ i = .intoIter k ∨ i = .iterDrop k → (t.slot k).cur = 0) ∧
    (t.status = .ok → i = .iterNext k → (t.slot k).cur = (s.slot k).cur + 1) ∧
    (t.slot k ≠ s.slot k → t.status = .ok ∧
      (i = .iter k ∨ i = .intoIter k ∨ i = .iterDrop k ∨ i = .iterNext k))) ∧
  (∀ (s : State) (k : SlotId), ReadsValue (.rdreg (BitVec.ofNat 32 (0x14 + k.val))) s (s.slot k).cur) ∧
  ∀ p k, ((State.resetAt p).slot k).cur = 0

/-- 10_state.md R42: the frame of every command, from every state: what each leaves unchanged besides the condition state, its row
of the table read with the row's own conditions. A command that does not complete with OK changes nothing else; PUSH writes
WCOUNT, WRESV and WORD[WCOUNT] only when it allocates; ITER_NEXT writes its slot's CUR alone. -/
def Obligations.CommandsWriteOnlyTheirWriteSet : Prop :=
  ∀ (i : Instr) (s t : State), exec i s = .next t →
    t.params = s.params ∧ t.inputs = s.inputs ∧ t.delivered = s.delivered ∧ (t.status ≠ .ok → SameBlock s t) ∧
    match i with
    | .new _ | .withCapacity _ _ => SameWords s t ∧ SameSlots s t
    | .len | .capacity | .get _ | .getUnchecked _ | .rdreg _ | .rdword _ => SameBlock s t
    | .push _ => t.nm1 = s.nm1 ∧ t.valid = s.valid ∧ SameSlots s t ∧
        (s.needsWord = false →
          t.wcount = s.wcount ∧ t.wresv = s.wresv ∧ t.word s.wcount.toNat = s.word s.wcount.toNat) ∧
        ∀ k, k ≠ s.wcount.toNat → k ≠ wordIndex s.width s.length.toNat → k ≠ lastWord s.width s.length.toNat →
          t.word k = s.word k
    | .set a _ | .setUnchecked a _ => SameArrayRegs s t ∧ SameSlots s t ∧
        ∀ k, k ≠ wordIndex s.width a.toNat → k ≠ lastWord s.width a.toNat → t.word k = s.word k
    | .iter k | .intoIter k => SameArrayRegs s t ∧ SameWords s t ∧ ∀ j, j ≠ k → t.slot j = s.slot j
    | .iterNext k => SameArrayRegs s t ∧ SameWords s t ∧ (t.slot k).state = (s.slot k).state ∧
        ∀ j, j ≠ k → t.slot j = s.slot j
    | .iterDrop k => ((s.slot k).state ≠ .own → SameArrayRegs s t) ∧ SameWords s t ∧ ∀ j, j ≠ k → t.slot j = s.slot j

/-- 10_state.md R27 and R41 (c), 93_implementation_defined.md U14 and U15: storage words at or above WCOUNT are never observed. Two states that differ in
such words only take steps to two states that differ in such words only, with the same responses. -/
def Obligations.HiddenWordsAreNeverObserved : Prop :=
  ∀ s u t, BlockInv s → DiffersOnlyInHiddenWords s u → step s = .next t →
    ∃ w, step u = .next w ∧ DiffersOnlyInHiddenWords t w

/-- 70_reset_and_hazards.md R244: without an array (after reset, or after ITER_DROP of an owning iterator) every array command
fails with E_NOARRAY until a constructor runs, RDREG and RDWORD work at once, and nothing else need be initialised:
a constructor then succeeds. -/
def Obligations.ArrayCommandsNeedAConstructor : Prop :=
  (∀ p, BlockInv (State.resetAt p) ∧ (State.resetAt p).valid = false) ∧
  (∀ s t k, BlockInv s → (s.slot k).state = .own → exec (.iterDrop k) s = .next t → t.valid = false) ∧
  (∀ i s t, s.valid = false → exec i s = .next t → (∀ n, i ≠ .new n ∧ ∀ a, i ≠ .withCapacity n a) → t.valid = false) ∧
  ∀ s, BlockInv s → s.valid = false →
    (∀ i, needsArray i = true → EndsWith i s .eNoArray) ∧
    (∀ r : Word, r.toNat ≤ 0x07 → ∃ v, ReadsValue (.rdreg r) s v) ∧ (∀ a, EndsWith (.rdword a) s .eOob) ∧
    (∀ n, 1 ≤ n → n ≤ 32 → ∃ t, Answers (.new n) s .ok 0 t ∧ t.valid = true) ∧
    ∀ n, 1 ≤ n → n ≤ 32 → ∃ t, Answers (.withCapacity n 0) s .ok 0 t ∧ t.valid = true
end

