-- ==== Sys2Proof/Laws/State.lean ====
section
/-! SUPPORT. One lemma per field per update of State, so that no later proof unfolds a record update. -/
namespace Sys2Proof.Machine

/-! ## complete -/

@[simp] theorem complete_params (s : State) (st : Status) (r : Word) : (s.complete st r).params = s.params := rfl
@[simp] theorem complete_nm1 (s : State) (st : Status) (r : Word) : (s.complete st r).nm1 = s.nm1 := rfl
@[simp] theorem complete_valid (s : State) (st : Status) (r : Word) : (s.complete st r).valid = s.valid := rfl
@[simp] theorem complete_length (s : State) (st : Status) (r : Word) : (s.complete st r).length = s.length := rfl
@[simp] theorem complete_wcount (s : State) (st : Status) (r : Word) : (s.complete st r).wcount = s.wcount := rfl
@[simp] theorem complete_wresv (s : State) (st : Status) (r : Word) : (s.complete st r).wresv = s.wresv := rfl
@[simp] theorem complete_status (s : State) (st : Status) (r : Word) : (s.complete st r).status = st := rfl
@[simp] theorem complete_errlog (s : State) (st : Status) (r : Word) : (s.complete st r).errlog = errlogAfter s.errlog st := rfl
@[simp] theorem complete_result (s : State) (st : Status) (r : Word) : (s.complete st r).result = resultAfter st r := rfl
@[simp] theorem complete_slots (s : State) (st : Status) (r : Word) : (s.complete st r).slots = s.slots := rfl
@[simp] theorem complete_storage (s : State) (st : Status) (r : Word) : (s.complete st r).storage = s.storage := rfl
@[simp] theorem complete_rsp (s : State) (st : Status) (r : Word) : (s.complete st r).rsp = some ⟨st, resultAfter st r⟩ := rfl
@[simp] theorem complete_inputs (s : State) (st : Status) (r : Word) : (s.complete st r).inputs = s.inputs := rfl
@[simp] theorem complete_delivered (s : State) (st : Status) (r : Word) : (s.complete st r).delivered = s.delivered := rfl

/-! ## writeWord -/

@[simp] theorem writeWord_params (s : State) (k : Nat) (v : Word) : (s.writeWord k v).params = s.params := rfl
@[simp] theorem writeWord_nm1 (s : State) (k : Nat) (v : Word) : (s.writeWord k v).nm1 = s.nm1 := rfl
@[simp] theorem writeWord_valid (s : State) (k : Nat) (v : Word) : (s.writeWord k v).valid = s.valid := rfl
@[simp] theorem writeWord_length (s : State) (k : Nat) (v : Word) : (s.writeWord k v).length = s.length := rfl
@[simp] theorem writeWord_wcount (s : State) (k : Nat) (v : Word) : (s.writeWord k v).wcount = s.wcount := rfl
@[simp] theorem writeWord_wresv (s : State) (k : Nat) (v : Word) : (s.writeWord k v).wresv = s.wresv := rfl
@[simp] theorem writeWord_status (s : State) (k : Nat) (v : Word) : (s.writeWord k v).status = s.status := rfl
@[simp] theorem writeWord_errlog (s : State) (k : Nat) (v : Word) : (s.writeWord k v).errlog = s.errlog := rfl
@[simp] theorem writeWord_result (s : State) (k : Nat) (v : Word) : (s.writeWord k v).result = s.result := rfl
@[simp] theorem writeWord_slots (s : State) (k : Nat) (v : Word) : (s.writeWord k v).slots = s.slots := rfl
@[simp] theorem writeWord_storage (s : State) (k : Nat) (v : Word) : (s.writeWord k v).storage = s.storage.write k v := rfl
@[simp] theorem writeWord_rsp (s : State) (k : Nat) (v : Word) : (s.writeWord k v).rsp = s.rsp := rfl
@[simp] theorem writeWord_inputs (s : State) (k : Nat) (v : Word) : (s.writeWord k v).inputs = s.inputs := rfl
@[simp] theorem writeWord_delivered (s : State) (k : Nat) (v : Word) : (s.writeWord k v).delivered = s.delivered := rfl

/-! ## setSlot -/

@[simp] theorem setSlot_params (s : State) (k : SlotId) (v : Slot) : (s.setSlot k v).params = s.params := rfl
@[simp] theorem setSlot_nm1 (s : State) (k : SlotId) (v : Slot) : (s.setSlot k v).nm1 = s.nm1 := rfl
@[simp] theorem setSlot_valid (s : State) (k : SlotId) (v : Slot) : (s.setSlot k v).valid = s.valid := rfl
@[simp] theorem setSlot_length (s : State) (k : SlotId) (v : Slot) : (s.setSlot k v).length = s.length := rfl
@[simp] theorem setSlot_wcount (s : State) (k : SlotId) (v : Slot) : (s.setSlot k v).wcount = s.wcount := rfl
@[simp] theorem setSlot_wresv (s : State) (k : SlotId) (v : Slot) : (s.setSlot k v).wresv = s.wresv := rfl
@[simp] theorem setSlot_status (s : State) (k : SlotId) (v : Slot) : (s.setSlot k v).status = s.status := rfl
@[simp] theorem setSlot_errlog (s : State) (k : SlotId) (v : Slot) : (s.setSlot k v).errlog = s.errlog := rfl
@[simp] theorem setSlot_result (s : State) (k : SlotId) (v : Slot) : (s.setSlot k v).result = s.result := rfl
@[simp] theorem setSlot_slots (s : State) (k : SlotId) (v : Slot) : (s.setSlot k v).slots = s.slots.set k v := rfl
@[simp] theorem setSlot_storage (s : State) (k : SlotId) (v : Slot) : (s.setSlot k v).storage = s.storage := rfl
@[simp] theorem setSlot_rsp (s : State) (k : SlotId) (v : Slot) : (s.setSlot k v).rsp = s.rsp := rfl
@[simp] theorem setSlot_inputs (s : State) (k : SlotId) (v : Slot) : (s.setSlot k v).inputs = s.inputs := rfl
@[simp] theorem setSlot_delivered (s : State) (k : SlotId) (v : Slot) : (s.setSlot k v).delivered = s.delivered := rfl

/-! ## construct -/

@[simp] theorem construct_params (s : State) (n r : Nat) : (s.construct n r).params = s.params := rfl
@[simp] theorem construct_nm1 (s : State) (n r : Nat) : (s.construct n r).nm1 = nm1OfWidth n := rfl
@[simp] theorem construct_valid (s : State) (n r : Nat) : (s.construct n r).valid = true := rfl
@[simp] theorem construct_length (s : State) (n r : Nat) : (s.construct n r).length = 0 := rfl
@[simp] theorem construct_wcount (s : State) (n r : Nat) : (s.construct n r).wcount = 0 := rfl
@[simp] theorem construct_wresv (s : State) (n r : Nat) : (s.construct n r).wresv = BitVec.ofNat 32 r := rfl
@[simp] theorem construct_status (s : State) (n r : Nat) : (s.construct n r).status = s.status := rfl
@[simp] theorem construct_errlog (s : State) (n r : Nat) : (s.construct n r).errlog = s.errlog := rfl
@[simp] theorem construct_result (s : State) (n r : Nat) : (s.construct n r).result = s.result := rfl
@[simp] theorem construct_slots (s : State) (n r : Nat) : (s.construct n r).slots = s.slots := rfl
@[simp] theorem construct_storage (s : State) (n r : Nat) : (s.construct n r).storage = s.storage := rfl
@[simp] theorem construct_rsp (s : State) (n r : Nat) : (s.construct n r).rsp = s.rsp := rfl
@[simp] theorem construct_inputs (s : State) (n r : Nat) : (s.construct n r).inputs = s.inputs := rfl
@[simp] theorem construct_delivered (s : State) (n r : Nat) : (s.construct n r).delivered = s.delivered := rfl

/-! ## release -/

@[simp] theorem release_params (s : State) : (s.release).params = s.params := rfl
@[simp] theorem release_nm1 (s : State) : (s.release).nm1 = 0 := rfl
@[simp] theorem release_valid (s : State) : (s.release).valid = false := rfl
@[simp] theorem release_length (s : State) : (s.release).length = 0 := rfl
@[simp] theorem release_wcount (s : State) : (s.release).wcount = 0 := rfl
@[simp] theorem release_wresv (s : State) : (s.release).wresv = 0 := rfl
@[simp] theorem release_status (s : State) : (s.release).status = s.status := rfl
@[simp] theorem release_errlog (s : State) : (s.release).errlog = s.errlog := rfl
@[simp] theorem release_result (s : State) : (s.release).result = s.result := rfl
@[simp] theorem release_slots (s : State) : (s.release).slots = s.slots := rfl
@[simp] theorem release_storage (s : State) : (s.release).storage = s.storage := rfl
@[simp] theorem release_rsp (s : State) : (s.release).rsp = s.rsp := rfl
@[simp] theorem release_inputs (s : State) : (s.release).inputs = s.inputs := rfl
@[simp] theorem release_delivered (s : State) : (s.release).delivered = s.delivered := rfl

/-! ## allocate -/

@[simp] theorem allocate_params (s : State) : (s.allocate).params = s.params := rfl
@[simp] theorem allocate_nm1 (s : State) : (s.allocate).nm1 = s.nm1 := rfl
@[simp] theorem allocate_valid (s : State) : (s.allocate).valid = s.valid := rfl
@[simp] theorem allocate_length (s : State) : (s.allocate).length = s.length := rfl
@[simp] theorem allocate_wcount (s : State) : (s.allocate).wcount = s.wcount + 1 := rfl
@[simp] theorem allocate_wresv (s : State) : (s.allocate).wresv = (if s.wresv.toNat < s.wcount.toNat + 1
      then BitVec.ofNat 32 (s.grow s.wresv.toNat (s.wcount.toNat + 1)) else s.wresv) := rfl
@[simp] theorem allocate_status (s : State) : (s.allocate).status = s.status := rfl
@[simp] theorem allocate_errlog (s : State) : (s.allocate).errlog = s.errlog := rfl
@[simp] theorem allocate_result (s : State) : (s.allocate).result = s.result := rfl
@[simp] theorem allocate_slots (s : State) : (s.allocate).slots = s.slots := rfl
@[simp] theorem allocate_storage (s : State) : (s.allocate).storage = s.storage.write s.wcount.toNat 0 := rfl
@[simp] theorem allocate_rsp (s : State) : (s.allocate).rsp = s.rsp := rfl
@[simp] theorem allocate_inputs (s : State) : (s.allocate).inputs = s.inputs := rfl
@[simp] theorem allocate_delivered (s : State) : (s.allocate).delivered = s.delivered := rfl

/-! ## takeInput -/

@[simp] theorem takeInput_params (s : State) (rest : List Input) : (s.takeInput rest).params = s.params := rfl
@[simp] theorem takeInput_nm1 (s : State) (rest : List Input) : (s.takeInput rest).nm1 = s.nm1 := rfl
@[simp] theorem takeInput_valid (s : State) (rest : List Input) : (s.takeInput rest).valid = s.valid := rfl
@[simp] theorem takeInput_length (s : State) (rest : List Input) : (s.takeInput rest).length = s.length := rfl
@[simp] theorem takeInput_wcount (s : State) (rest : List Input) : (s.takeInput rest).wcount = s.wcount := rfl
@[simp] theorem takeInput_wresv (s : State) (rest : List Input) : (s.takeInput rest).wresv = s.wresv := rfl
@[simp] theorem takeInput_status (s : State) (rest : List Input) : (s.takeInput rest).status = s.status := rfl
@[simp] theorem takeInput_errlog (s : State) (rest : List Input) : (s.takeInput rest).errlog = s.errlog := rfl
@[simp] theorem takeInput_result (s : State) (rest : List Input) : (s.takeInput rest).result = s.result := rfl
@[simp] theorem takeInput_slots (s : State) (rest : List Input) : (s.takeInput rest).slots = s.slots := rfl
@[simp] theorem takeInput_storage (s : State) (rest : List Input) : (s.takeInput rest).storage = s.storage := rfl
@[simp] theorem takeInput_rsp (s : State) (rest : List Input) : (s.takeInput rest).rsp = s.rsp := rfl
@[simp] theorem takeInput_inputs (s : State) (rest : List Input) : (s.takeInput rest).inputs = rest := rfl
@[simp] theorem takeInput_delivered (s : State) (rest : List Input) : (s.takeInput rest).delivered = s.delivered := rfl

/-! ## applyReset -/

@[simp] theorem applyReset_params (s : State) (cells : List (Nat × Word)) : (s.applyReset cells).params = s.params := rfl
@[simp] theorem applyReset_nm1 (s : State) (cells : List (Nat × Word)) : (s.applyReset cells).nm1 = 0 := rfl
@[simp] theorem applyReset_valid (s : State) (cells : List (Nat × Word)) : (s.applyReset cells).valid = false := rfl
@[simp] theorem applyReset_length (s : State) (cells : List (Nat × Word)) : (s.applyReset cells).length = 0 := rfl
@[simp] theorem applyReset_wcount (s : State) (cells : List (Nat × Word)) : (s.applyReset cells).wcount = 0 := rfl
@[simp] theorem applyReset_wresv (s : State) (cells : List (Nat × Word)) : (s.applyReset cells).wresv = 0 := rfl
@[simp] theorem applyReset_status (s : State) (cells : List (Nat × Word)) : (s.applyReset cells).status = .ok := rfl
@[simp] theorem applyReset_errlog (s : State) (cells : List (Nat × Word)) : (s.applyReset cells).errlog = 0 := rfl
@[simp] theorem applyReset_result (s : State) (cells : List (Nat × Word)) : (s.applyReset cells).result = 0 := rfl
@[simp] theorem applyReset_slots (s : State) (cells : List (Nat × Word)) : (s.applyReset cells).slots = #v[Slot.closed, Slot.closed, Slot.closed, Slot.closed] := rfl
@[simp] theorem applyReset_storage (s : State) (cells : List (Nat × Word)) : (s.applyReset cells).storage = Storage.ofCells s.wMax cells := rfl
@[simp] theorem applyReset_rsp (s : State) (cells : List (Nat × Word)) : (s.applyReset cells).rsp = none := rfl
@[simp] theorem applyReset_inputs (s : State) (cells : List (Nat × Word)) : (s.applyReset cells).inputs = s.inputs := rfl
@[simp] theorem applyReset_delivered (s : State) (cells : List (Nat × Word)) : (s.applyReset cells).delivered = s.delivered := rfl

/-! ## The views depend on the fields they are made of -/

@[simp] theorem complete_width (s : State) (st : Status) (r : Word) : (s.complete st r).width = s.width := rfl
@[simp] theorem complete_wMax (s : State) (st : Status) (r : Word) : (s.complete st r).wMax = s.wMax := rfl
@[simp] theorem complete_slot (s : State) (st : Status) (r : Word) (k : SlotId) :
    (s.complete st r).slot k = s.slot k := rfl
@[simp] theorem complete_word (s : State) (st : Status) (r : Word) (k : Nat) :
    (s.complete st r).word k = s.word k := rfl
@[simp] theorem complete_storageBit (s : State) (st : Status) (r : Word) (b : Nat) :
    (s.complete st r).storageBit b = s.storageBit b := rfl
@[simp] theorem writeWord_width (s : State) (k : Nat) (v : Word) : (s.writeWord k v).width = s.width := rfl
@[simp] theorem writeWord_wMax (s : State) (k : Nat) (v : Word) : (s.writeWord k v).wMax = s.wMax := rfl
@[simp] theorem writeWord_slot (s : State) (k : Nat) (v : Word) (j : SlotId) :
    (s.writeWord k v).slot j = s.slot j := rfl
@[simp] theorem setSlot_width (s : State) (k : SlotId) (v : Slot) : (s.setSlot k v).width = s.width := rfl
@[simp] theorem setSlot_wMax (s : State) (k : SlotId) (v : Slot) : (s.setSlot k v).wMax = s.wMax := rfl
@[simp] theorem setSlot_word (s : State) (k : SlotId) (v : Slot) (j : Nat) : (s.setSlot k v).word j = s.word j := rfl
@[simp] theorem construct_slot (s : State) (n r : Nat) (k : SlotId) : (s.construct n r).slot k = s.slot k := rfl
@[simp] theorem construct_wMax (s : State) (n r : Nat) : (s.construct n r).wMax = s.wMax := rfl
@[simp] theorem construct_word (s : State) (n r k : Nat) : (s.construct n r).word k = s.word k := rfl
@[simp] theorem release_slot (s : State) (k : SlotId) : s.release.slot k = s.slot k := rfl
@[simp] theorem release_wMax (s : State) : s.release.wMax = s.wMax := rfl
@[simp] theorem release_word (s : State) (k : Nat) : s.release.word k = s.word k := rfl
@[simp] theorem allocate_width (s : State) : s.allocate.width = s.width := rfl
@[simp] theorem allocate_wMax (s : State) : s.allocate.wMax = s.wMax := rfl
@[simp] theorem allocate_slot (s : State) (k : SlotId) : s.allocate.slot k = s.slot k := rfl
@[simp] theorem applyReset_wMax (s : State) (cells : List (Nat × Word)) : (s.applyReset cells).wMax = s.wMax := rfl

/-! ## Slots -/

/-- Reading a slot after one was replaced. -/
theorem slot_setSlot (s : State) (k j : SlotId) (v : Slot) :
    (s.setSlot k v).slot j = if j = k then v else s.slot j := by
  by_cases h : j = k
  · subst h; simp [State.slot, State.setSlot]
  · have : (k : Nat) ≠ (j : Nat) := fun e => h (Fin.ext e.symm)
    simp [State.slot, State.setSlot, h, this]

/-- After reset every slot is closed (R240). -/
@[simp] theorem applyReset_slot (s : State) (cells : List (Nat × Word)) (k : SlotId) :
    (s.applyReset cells).slot k = Slot.closed := by
  revert k; intro k; fin_cases k <;> rfl

theorem borrowed_eq_true (s : State) : s.borrowed = true ↔ ∃ k, (s.slot k).state = .borrow := by
  simp [State.borrowed]
theorem moved_eq_true (s : State) : s.moved = true ↔ ∃ k, (s.slot k).state = .own := by
  simp [State.moved]
theorem anyIter_eq_true (s : State) : s.anyIter = true ↔ ∃ k, (s.slot k).state ≠ .idle := by
  simp [State.anyIter]

theorem borrowed_eq_false (s : State) : s.borrowed = false ↔ ∀ k, (s.slot k).state ≠ .borrow := by
  simp [State.borrowed]
theorem moved_eq_false (s : State) : s.moved = false ↔ NotMoved s := by
  simp [State.moved]
theorem anyIter_eq_false (s : State) : s.anyIter = false ↔ AllIdle s := by
  simp [State.anyIter]

/-- A block none of whose slots owns or borrows has only idle slots. -/
theorem allIdle_of_not_borrowed (s : State) (hm : NotMoved s) (hb : s.borrowed = false) : AllIdle s := by
  intro k
  have h1 := hm k
  have h2 := (borrowed_eq_false s).1 hb k
  cases h : (s.slot k).state <;> simp_all

end Sys2Proof.Machine
end

