-- ==== Sys2Proof/Laws/Storage.lean ====
section
/-! SUPPORT. The laws of the word storage: a read after a write gives the value written, a write leaves every other word alone
(20_memory.md R67), every operation keeps the canonical form, and equal contents are equal data. -/
namespace Sys2Proof.Machine

theorem Storage.read_filter_ne (m : Storage) (k j : Nat) (h : j ≠ k) :
    Storage.read (m.filter fun c => c.1 != k) j = Storage.read m j := by
  induction m with
  | nil => rfl
  | cons c rest ih =>
    obtain ⟨a, w⟩ := c
    by_cases hk : a = k
    · subst hk; simp [Storage.read, ih, Ne.symm h]
    · simp [hk, Storage.read, ih]

theorem Storage.read_of_not_listed (m : Storage) (k : Nat) (h : ∀ c ∈ m, c.1 ≠ k) :
    Storage.read m k = unwrittenWord := by
  induction m with
  | nil => rfl
  | cons c rest ih =>
    have h1 := h c List.mem_cons_self
    simp only [Storage.read, h1, if_false]
    exact ih fun d hd => h d (List.mem_cons_of_mem _ hd)

theorem Storage.read_place (m : Storage) (k j : Nat) (v : Word) (h : ∀ c ∈ m, c.1 ≠ k) :
    Storage.read (Storage.place m k v) j = if j = k then v else Storage.read m j := by
  induction m with
  | nil => simp [Storage.place, Storage.read, eq_comm]
  | cons c rest ih =>
    obtain ⟨a, w⟩ := c
    have ha : a ≠ k := h (a, w) List.mem_cons_self
    have ih := ih fun d hd => h d (List.mem_cons_of_mem _ hd)
    unfold Storage.place
    split
    · simp [Storage.read, eq_comm]
    · simp only [Storage.read, ih]
      by_cases hj : a = j
      · subst hj; simp [ha]
      · simp [hj]

/-- Read after write, at every index. -/
theorem Storage.read_write (m : Storage) (k j : Nat) (v : Word) :
    (m.write k v).read j = if j = k then v else m.read j := by
  have hne : ∀ c ∈ m.filter (fun c => c.1 != k), c.1 ≠ k := by simp
  unfold Storage.write
  simp only
  split
  · next hv =>
    by_cases hj : j = k
    · subst hj; simp [Storage.read_of_not_listed _ _ hne, hv]
    · simp [hj, Storage.read_filter_ne m k j hj]
  · rw [Storage.read_place _ _ _ _ hne]
    by_cases hj : j = k
    · simp [hj]
    · simp [hj, Storage.read_filter_ne m k j hj]

theorem Storage.mem_place (m : Storage) (k : Nat) (v : Word) (c : Nat × Word) :
    c ∈ Storage.place m k v ↔ c = (k, v) ∨ c ∈ m := by
  induction m with
  | nil => simp [Storage.place]
  | cons d rest ih =>
    obtain ⟨a, w⟩ := d
    unfold Storage.place
    split
    · simp
    · simp only [List.mem_cons, ih]; tauto

theorem Storage.pairwise_place (m : Storage) (k : Nat) (v : Word)
    (hm : m.Pairwise fun c d => c.1 < d.1) (h : ∀ c ∈ m, c.1 ≠ k) :
    (Storage.place m k v).Pairwise fun c d => c.1 < d.1 := by
  induction m with
  | nil => simp [Storage.place]
  | cons d rest ih =>
    obtain ⟨a, w⟩ := d
    have ha : a ≠ k := h (a, w) List.mem_cons_self
    obtain ⟨h1, h2⟩ := List.pairwise_cons.1 hm
    unfold Storage.place
    split
    · next hlt =>
      refine List.pairwise_cons.2 ⟨fun c hc => ?_, hm⟩
      rcases List.mem_cons.1 hc with rfl | hc
      · exact hlt
      · exact Nat.lt_trans hlt (h1 c hc)
    · next hge =>
      refine List.pairwise_cons.2 ⟨fun c hc => ?_, ih h2 fun c hc => h c (List.mem_cons_of_mem _ hc)⟩
      rcases (Storage.mem_place rest k v c).1 hc with rfl | hc
      · simp only; omega
      · exact h1 c hc

/-- A write keeps the canonical form. -/
theorem Storage.wf_write (m : Storage) (k : Nat) (v : Word) (h : m.wf) : (m.write k v).wf := by
  obtain ⟨hp, hv⟩ := h
  have hp' : (m.filter fun c => c.1 != k).Pairwise fun c d => c.1 < d.1 := hp.filter _
  have hv' : ∀ c ∈ m.filter (fun c => c.1 != k), c.2 ≠ unwrittenWord :=
    fun c hc => hv c (List.mem_of_mem_filter hc)
  unfold Storage.write
  simp only
  split
  · exact ⟨hp', hv'⟩
  · next hne =>
    refine ⟨Storage.pairwise_place _ _ _ hp' (by simp), fun c hc => ?_⟩
    rcases (Storage.mem_place _ _ _ _).1 hc with rfl | hc
    · exact hne
    · exact hv' c hc

/-- A write lists no word but the one written and those listed before. -/
theorem Storage.mem_write (m : Storage) (k : Nat) (v : Word) (c : Nat × Word) (h : c ∈ m.write k v) :
    c.1 = k ∨ c ∈ m := by
  unfold Storage.write at h
  simp only at h
  split at h
  · exact .inr (List.mem_of_mem_filter h)
  · rcases (Storage.mem_place _ _ _ _).1 h with rfl | h
    · exact .inl rfl
    · exact .inr (List.mem_of_mem_filter h)

/-- The words of a list of cells, put into an empty storage: canonical, and within the bound. -/
theorem Storage.ofCells_spec (bound : Nat) (cells : List (Nat × Word)) :
    (Storage.ofCells bound cells).wf ∧ ∀ c ∈ Storage.ofCells bound cells, c.1 < bound := by
  unfold Storage.ofCells
  suffices h : ∀ m : Storage, (m.wf ∧ ∀ c ∈ m, c.1 < bound) →
      (List.foldl (fun (m : Storage) (c : Nat × Word) => if c.1 < bound then m.write c.1 c.2 else m) m cells).wf ∧
      ∀ c ∈ List.foldl (fun (m : Storage) (c : Nat × Word) => if c.1 < bound then m.write c.1 c.2 else m) m cells,
        c.1 < bound from
    h [] ⟨⟨List.Pairwise.nil, by simp⟩, by simp⟩
  induction cells with
  | nil => exact fun m h => h
  | cons d rest ih =>
    intro m h
    simp only [List.foldl_cons]
    apply ih
    split
    · next hlt =>
      refine ⟨Storage.wf_write _ _ _ h.1, fun c hc => ?_⟩
      rcases Storage.mem_write _ _ _ _ hc with e | hc
      · omega
      · exact h.2 c hc
    · exact h

/-- A listed word of a canonical storage reads as it is listed. -/
theorem Storage.read_of_mem (m : Storage) (h : m.Pairwise fun c d => c.1 < d.1) (c : Nat × Word) (hc : c ∈ m) :
    m.read c.1 = c.2 := by
  induction m with
  | nil => simp at hc
  | cons d rest ih =>
    obtain ⟨h1, h2⟩ := List.pairwise_cons.1 h
    rcases List.mem_cons.1 hc with rfl | hc
    · simp [Storage.read]
    · have := h1 c hc
      simp only [Storage.read]
      rw [if_neg (by omega)]
      exact ih h2 hc

/-- Two canonical storages with the same contents are equal data. -/
theorem Storage.ext_of_wf (m m' : Storage) (h : m.wf) (h' : m'.wf) (e : ∀ k, m.read k = m'.read k) : m = m' := by
  have sub : ∀ a b : Storage, a.wf → b.wf → (∀ k, a.read k = b.read k) → ∀ c ∈ a, c ∈ b := by
    intro a b ha hb hab c hc
    by_contra hn
    have h1 := Storage.read_of_mem a ha.1 c hc
    by_cases hk : ∃ d ∈ b, d.1 = c.1
    · obtain ⟨d, hd, hdk⟩ := hk
      have h2 := Storage.read_of_mem b hb.1 d hd
      rw [hdk, ← hab, h1] at h2
      exact hn (by rw [show c = d from Prod.ext hdk.symm h2]; exact hd)
    · have h2 := Storage.read_of_not_listed b c.1 fun d hd he => hk ⟨d, hd, he⟩
      exact ha.2 c hc (by rw [← h1, hab, h2])
  refine List.Perm.eq_of_pairwise (le := fun c d => c.1 < d.1) (fun a b _ _ h1 h2 => by omega) h.1 h'.1 ?_
  refine (List.perm_ext_iff_of_nodup ?_ ?_).2 fun c => ⟨sub m m' h h' e c, sub m' m h' h (fun k => (e k).symm) c⟩
  · exact h.1.imp fun hlt he => by simp [he] at hlt
  · exact h'.1.imp fun hlt he => by simp [he] at hlt

/-! ## The same laws for State -/

/-- Read after write, at every word index (R67). -/
theorem word_writeWord (s : State) (k j : Nat) (v : Word) :
    (s.writeWord k v).word j = if j = k then v else s.word j :=
  Storage.read_write s.storage k j v

/-- A write to a word that exists keeps the storage canonical and within W_MAX. -/
theorem storageInv_writeWord (s : State) (k : Nat) (v : Word) (hk : k < s.wMax) (h : StorageInv s) :
    StorageInv (s.writeWord k v) := by
  refine ⟨Storage.wf_write _ _ _ h.1, fun c hc => ?_⟩
  rcases Storage.mem_write _ _ _ _ hc with e | hc
  · simpa [e] using hk
  · exact h.2 c hc

end Sys2Proof.Machine
end

