-- ==== Sys2Proof/Laws/Ops.lean ====
section
/-! SUPPORT. One lemma per shared operation of Machine/Flags.lean and Machine/Operands.lean that says once what it can do; later
proofs cite these instead of unfolding the operation. -/
namespace Sys2Proof.Machine

/-! ## Completion and refusals -/

/-- A command that finishes answers the next state, and only that one. -/
theorem finish_eq_next (st : Status) (r : Word) (s t : State) : finish st r s = .next t ↔ t = s.complete st r := by
  simp only [finish, Host.Outcome.next.injEq]; exact eq_comm

theorem raise_eq_next (st : Status) (s t : State) : raise st s = .next t ↔ t = s.complete st 0 :=
  finish_eq_next st 0 s t

/-- The read checks pass exactly when there is an array that no iterator owns. -/
theorem readRefusal_eq_none (s : State) : readRefusal s = none ↔ s.valid = true ∧ NotMoved s := by
  rw [← moved_eq_false]
  unfold readRefusal
  cases s.valid <;> cases s.moved <;> simp

/-- The write checks pass exactly when there is an array and every slot is idle. -/
theorem writeRefusal_eq_none (s : State) : writeRefusal s = none ↔ s.valid = true ∧ AllIdle s := by
  have h : writeRefusal s = none ↔ readRefusal s = none ∧ s.borrowed = false := by
    unfold writeRefusal
    cases readRefusal s <;> cases s.borrowed <;> simp
  rw [h, readRefusal_eq_none]
  constructor
  · rintro ⟨⟨hv, hm⟩, hb⟩
    exact ⟨hv, allIdle_of_not_borrowed s hm hb⟩
  · rintro ⟨hv, hi⟩
    refine ⟨⟨hv, fun k => ?_⟩, (borrowed_eq_false s).2 fun k => ?_⟩ <;> simp [hi k]

/-- Which status a read check raises. -/
theorem readRefusal_eq_some (s : State) (st : Status) :
    readRefusal s = some st ↔
      (s.valid = false ∧ st = .eNoArray) ∨ (s.valid = true ∧ s.moved = true ∧ st = .eMoved) := by
  unfold readRefusal
  cases s.valid <;> cases s.moved <;> simp [eq_comm]

/-- Which status a write check raises. -/
theorem writeRefusal_eq_some (s : State) (st : Status) :
    writeRefusal s = some st ↔
      (s.valid = false ∧ st = .eNoArray) ∨ (s.valid = true ∧ s.moved = true ∧ st = .eMoved) ∨
      (s.valid = true ∧ s.moved = false ∧ s.borrowed = true ∧ st = .eBorrowed) := by
  unfold writeRefusal readRefusal
  cases s.valid <;> cases s.moved <;> cases s.borrowed <;> simp [eq_comm]

/-- A guarded command either raises the refusal or goes on. -/
theorem unlessRefused_eq_next (refusal : Option Status) (s t : State) (go : Result) :
    unlessRefused refusal s go = .next t ↔
      (∃ st, refusal = some st ∧ t = s.complete st 0) ∨ (refusal = none ∧ go = .next t) := by
  cases refusal <;> simp [unlessRefused, raise_eq_next]

theorem onWord_eq_next (k : Nat) (s t : State) (go : Result) :
    onWord k s go = .next t ↔ k < s.wMax ∧ go = .next t := by
  unfold onWord; split <;> simp_all

theorem onElement_eq_next (i : Nat) (s t : State) (go : Result) :
    onElement i s go = .next t ↔ lastWord s.width i < s.wMax ∧ go = .next t :=
  onWord_eq_next _ s t go

/-! ## Location (00_scope.md R17) -/

theorem bitOffset_lt (n i : Nat) : bitOffset n i < 32 := Nat.mod_lt _ (by decide)

theorem wordIndex_le_lastWord (n i : Nat) : wordIndex n i ≤ lastWord n i := by
  unfold lastWord; split <;> omega

/-- The highest word an element touches is the word of its last bit. -/
theorem lastWord_eq (n i : Nat) (h1 : 1 ≤ n) (h2 : n ≤ 32) : lastWord n i = (i * n + (n - 1)) / 32 := by
  unfold lastWord spans available bitOffset wordIndex bitPos
  generalize i * n = p
  split <;> simp_all <;> omega

theorem width_pos (s : State) : 1 ≤ s.width := by simp [State.width]
theorem width_le (s : State) : s.width ≤ 32 := by
  have := s.nm1.isLt; simp only [State.width]; omega

/-! ## Insertion writes storage words only -/

/-- `or_field` is one or two word writes. -/
theorem orField_cases (s : State) (i : Nat) (v : Word) :
    (spans s.width i = false ∧ s.orField i v =
      s.writeWord (wordIndex s.width i) (s.word (wordIndex s.width i) ||| (v <<< bitOffset s.width i))) ∨
    (spans s.width i = true ∧ s.orField i v =
      (s.writeWord (wordIndex s.width i) (s.word (wordIndex s.width i) ||| (v <<< bitOffset s.width i))).writeWord
        (wordIndex s.width i + 1) (s.word (wordIndex s.width i + 1) ||| (v >>> available s.width i))) := by
  unfold State.orField
  cases h : spans s.width i <;> simp [h]

/-- `write_field` is one or two word writes. -/
theorem writeField_cases (s : State) (i : Nat) (v : Word) :
    (spans s.width i = false ∧ s.writeField i v =
      s.writeWord (wordIndex s.width i)
        ((s.word (wordIndex s.width i) &&& ~~~(s.maxWord <<< bitOffset s.width i)) ||| (v <<< bitOffset s.width i))) ∨
    (spans s.width i = true ∧ s.writeField i v =
      (s.writeWord (wordIndex s.width i)
        ((s.word (wordIndex s.width i) &&& ~~~(s.maxWord <<< bitOffset s.width i)) |||
          (v <<< bitOffset s.width i))).writeWord
        (wordIndex s.width i + 1)
        ((s.word (wordIndex s.width i + 1) &&& ~~~(s.maxWord >>> available s.width i)) |||
          (v >>> available s.width i))) := by
  unfold State.writeField
  cases h : spans s.width i <;> simp [h]

/-- `or_field` changes the storage and nothing else. -/
theorem orField_eq (s : State) (i : Nat) (v : Word) : s.orField i v = { s with storage := (s.orField i v).storage } := by
  rcases orField_cases s i v with ⟨-, h⟩ | ⟨-, h⟩ <;> rw [h] <;> rfl

/-- `write_field` changes the storage and nothing else. -/
theorem writeField_eq (s : State) (i : Nat) (v : Word) :
    s.writeField i v = { s with storage := (s.writeField i v).storage } := by
  rcases writeField_cases s i v with ⟨-, h⟩ | ⟨-, h⟩ <;> rw [h] <;> rfl

/-! ### The registers after an insertion -/

@[simp] theorem orField_params (s : State) (i : Nat) (v : Word) : (s.orField i v).params = s.params := by rw [orField_eq]
@[simp] theorem orField_nm1 (s : State) (i : Nat) (v : Word) : (s.orField i v).nm1 = s.nm1 := by rw [orField_eq]
@[simp] theorem orField_valid (s : State) (i : Nat) (v : Word) : (s.orField i v).valid = s.valid := by rw [orField_eq]
@[simp] theorem orField_length (s : State) (i : Nat) (v : Word) : (s.orField i v).length = s.length := by rw [orField_eq]
@[simp] theorem orField_wcount (s : State) (i : Nat) (v : Word) : (s.orField i v).wcount = s.wcount := by rw [orField_eq]
@[simp] theorem orField_wresv (s : State) (i : Nat) (v : Word) : (s.orField i v).wresv = s.wresv := by rw [orField_eq]
@[simp] theorem orField_status (s : State) (i : Nat) (v : Word) : (s.orField i v).status = s.status := by rw [orField_eq]
@[simp] theorem orField_errlog (s : State) (i : Nat) (v : Word) : (s.orField i v).errlog = s.errlog := by rw [orField_eq]
@[simp] theorem orField_result (s : State) (i : Nat) (v : Word) : (s.orField i v).result = s.result := by rw [orField_eq]
@[simp] theorem orField_slots (s : State) (i : Nat) (v : Word) : (s.orField i v).slots = s.slots := by rw [orField_eq]
@[simp] theorem orField_rsp (s : State) (i : Nat) (v : Word) : (s.orField i v).rsp = s.rsp := by rw [orField_eq]
@[simp] theorem orField_inputs (s : State) (i : Nat) (v : Word) : (s.orField i v).inputs = s.inputs := by rw [orField_eq]
@[simp] theorem orField_delivered (s : State) (i : Nat) (v : Word) : (s.orField i v).delivered = s.delivered := by rw [orField_eq]
@[simp] theorem orField_width (s : State) (i : Nat) (v : Word) : (s.orField i v).width = s.width := by rw [orField_eq]; rfl
@[simp] theorem orField_wMax (s : State) (i : Nat) (v : Word) : (s.orField i v).wMax = s.wMax := by rw [orField_eq]; rfl
@[simp] theorem orField_slot (s : State) (i : Nat) (v : Word) (k : SlotId) : (s.orField i v).slot k = s.slot k := by
  rw [orField_eq]; rfl
@[simp] theorem writeField_params (s : State) (i : Nat) (v : Word) : (s.writeField i v).params = s.params := by rw [writeField_eq]
@[simp] theorem writeField_nm1 (s : State) (i : Nat) (v : Word) : (s.writeField i v).nm1 = s.nm1 := by rw [writeField_eq]
@[simp] theorem writeField_valid (s : State) (i : Nat) (v : Word) : (s.writeField i v).valid = s.valid := by rw [writeField_eq]
@[simp] theorem writeField_length (s : State) (i : Nat) (v : Word) : (s.writeField i v).length = s.length := by rw [writeField_eq]
@[simp] theorem writeField_wcount (s : State) (i : Nat) (v : Word) : (s.writeField i v).wcount = s.wcount := by rw [writeField_eq]
@[simp] theorem writeField_wresv (s : State) (i : Nat) (v : Word) : (s.writeField i v).wresv = s.wresv := by rw [writeField_eq]
@[simp] theorem writeField_status (s : State) (i : Nat) (v : Word) : (s.writeField i v).status = s.status := by rw [writeField_eq]
@[simp] theorem writeField_errlog (s : State) (i : Nat) (v : Word) : (s.writeField i v).errlog = s.errlog := by rw [writeField_eq]
@[simp] theorem writeField_result (s : State) (i : Nat) (v : Word) : (s.writeField i v).result = s.result := by rw [writeField_eq]
@[simp] theorem writeField_slots (s : State) (i : Nat) (v : Word) : (s.writeField i v).slots = s.slots := by rw [writeField_eq]
@[simp] theorem writeField_rsp (s : State) (i : Nat) (v : Word) : (s.writeField i v).rsp = s.rsp := by rw [writeField_eq]
@[simp] theorem writeField_inputs (s : State) (i : Nat) (v : Word) : (s.writeField i v).inputs = s.inputs := by rw [writeField_eq]
@[simp] theorem writeField_delivered (s : State) (i : Nat) (v : Word) : (s.writeField i v).delivered = s.delivered := by rw [writeField_eq]
@[simp] theorem writeField_width (s : State) (i : Nat) (v : Word) : (s.writeField i v).width = s.width := by rw [writeField_eq]; rfl
@[simp] theorem writeField_wMax (s : State) (i : Nat) (v : Word) : (s.writeField i v).wMax = s.wMax := by rw [writeField_eq]; rfl
@[simp] theorem writeField_slot (s : State) (i : Nat) (v : Word) (k : SlotId) : (s.writeField i v).slot k = s.slot k := by
  rw [writeField_eq]; rfl
@[simp] theorem append_params (s : State) (v : Word) : (s.append v).params = s.params := by simp [State.append]
@[simp] theorem append_nm1 (s : State) (v : Word) : (s.append v).nm1 = s.nm1 := by simp [State.append]
@[simp] theorem append_valid (s : State) (v : Word) : (s.append v).valid = s.valid := by simp [State.append]
@[simp] theorem append_length (s : State) (v : Word) : (s.append v).length = s.length + 1 := by simp [State.append]
@[simp] theorem append_wcount (s : State) (v : Word) : (s.append v).wcount = s.wcount := by simp [State.append]
@[simp] theorem append_wresv (s : State) (v : Word) : (s.append v).wresv = s.wresv := by simp [State.append]
@[simp] theorem append_status (s : State) (v : Word) : (s.append v).status = s.status := by simp [State.append]
@[simp] theorem append_errlog (s : State) (v : Word) : (s.append v).errlog = s.errlog := by simp [State.append]
@[simp] theorem append_result (s : State) (v : Word) : (s.append v).result = s.result := by simp [State.append]
@[simp] theorem append_slots (s : State) (v : Word) : (s.append v).slots = s.slots := by simp [State.append]
@[simp] theorem append_rsp (s : State) (v : Word) : (s.append v).rsp = s.rsp := by simp [State.append]
@[simp] theorem append_inputs (s : State) (v : Word) : (s.append v).inputs = s.inputs := by simp [State.append]
@[simp] theorem append_delivered (s : State) (v : Word) : (s.append v).delivered = s.delivered := by simp [State.append]
@[simp] theorem append_width (s : State) (v : Word) : (s.append v).width = s.width := by simp [State.width]
@[simp] theorem append_wMax (s : State) (v : Word) : (s.append v).wMax = s.wMax := by simp [State.wMax]
@[simp] theorem append_slot (s : State) (v : Word) (k : SlotId) : (s.append v).slot k = s.slot k := by simp [State.slot]
@[simp] theorem append_word (s : State) (v : Word) (k : Nat) :
    (s.append v).word k = (s.orField s.length.toNat v).word k := rfl

/-- `or_field` leaves every word outside the element's as it was. -/
theorem orField_word_of_ne (s : State) (i k : Nat) (v : Word)
    (h1 : k ≠ wordIndex s.width i) (h2 : k ≠ lastWord s.width i) : (s.orField i v).word k = s.word k := by
  rcases orField_cases s i v with ⟨-, h⟩ | ⟨hs, h⟩
  · rw [h, word_writeWord, if_neg h1]
  · have h2 : k ≠ wordIndex s.width i + 1 := by simpa [lastWord, hs] using h2
    rw [h, word_writeWord, if_neg h2, word_writeWord, if_neg h1]

/-- `write_field` leaves every word outside the element's as it was. -/
theorem writeField_word_of_ne (s : State) (i k : Nat) (v : Word)
    (h1 : k ≠ wordIndex s.width i) (h2 : k ≠ lastWord s.width i) : (s.writeField i v).word k = s.word k := by
  rcases writeField_cases s i v with ⟨-, h⟩ | ⟨hs, h⟩
  · rw [h, word_writeWord, if_neg h1]
  · have h2 : k ≠ wordIndex s.width i + 1 := by simpa [lastWord, hs] using h2
    rw [h, word_writeWord, if_neg h2, word_writeWord, if_neg h1]

/-- `or_field` within W_MAX keeps the storage canonical. -/
theorem storageInv_orField (s : State) (i : Nat) (v : Word) (hk : lastWord s.width i < s.wMax) (h : StorageInv s) :
    StorageInv (s.orField i v) := by
  have h0 := wordIndex_le_lastWord s.width i
  rcases orField_cases s i v with ⟨-, e⟩ | ⟨hs, e⟩ <;> rw [e]
  · exact storageInv_writeWord _ _ _ (by omega) h
  · have hk : wordIndex s.width i + 1 < s.wMax := by simpa [lastWord, hs] using hk
    exact storageInv_writeWord _ _ _ hk (storageInv_writeWord _ _ _ (by omega) h)

/-- `write_field` within W_MAX keeps the storage canonical. -/
theorem storageInv_writeField (s : State) (i : Nat) (v : Word) (hk : lastWord s.width i < s.wMax) (h : StorageInv s) :
    StorageInv (s.writeField i v) := by
  have h0 := wordIndex_le_lastWord s.width i
  rcases writeField_cases s i v with ⟨-, e⟩ | ⟨hs, e⟩ <;> rw [e]
  · exact storageInv_writeWord _ _ _ (by omega) h
  · have hk : wordIndex s.width i + 1 < s.wMax := by simpa [lastWord, hs] using hk
    exact storageInv_writeWord _ _ _ hk (storageInv_writeWord _ _ _ (by omega) h)

/-! ## Bits of the insertion and extraction words -/

/-- The element mask has its low N bits set (R7). -/
theorem maxWord_getLsbD (s : State) (j : Nat) : s.maxWord.getLsbD j = decide (j < s.width) := by
  have h := width_le s
  simp only [State.maxWord, maxOfWidth, BitVec.getLsbD_ofNat, Nat.testBit_two_pow_sub_one]
  by_cases hj : j < s.width <;> simp [hj]
  omega

/-- MAX as a number. -/
theorem maxWord_toNat (s : State) : s.maxWord.toNat = 2 ^ s.width - 1 := by
  have h : 2 ^ s.width ≤ 2 ^ 32 := Nat.pow_le_pow_right (by decide) (width_le s)
  simp only [State.maxWord, maxOfWidth, BitVec.toNat_ofNat]
  apply Nat.mod_eq_of_lt; omega

/-- A value of at most MAX has no bit at or above N. -/
theorem getLsbD_of_le_max (s : State) (v : Word) (hv : v.toNat ≤ maxOfWidth s.width) (j : Nat) (hj : s.width ≤ j) :
    v.getLsbD j = false := by
  have h1 : v.toNat < 2 ^ j :=
    Nat.lt_of_lt_of_le (by have := Nat.two_pow_pos s.width; simp only [maxOfWidth] at hv; omega)
      (Nat.pow_le_pow_right (by decide) hj)
  rw [BitVec.getLsbD, Nat.testBit_lt_two_pow h1]

/-! ## The reservation (00_scope.md R13) -/

/-- GROW's value is at most W_MAX where the need is. -/
theorem grow_le (s : State) (c need : Nat) (h : need ≤ s.wMax) : s.grow c need ≤ s.wMax := by
  unfold State.grow; omega

theorem wMax_lt (s : State) : s.wMax < 2 ^ 27 := by
  have := s.params.wMaxPred.isLt; simp only [State.wMax]; omega

end Sys2Proof.Machine
end

