-- ==== Sys2Proof/Laws/Exec.lean ====
section
/-! SUPPORT. One inversion lemma per command: if it answers the next state `t`, then one of these cases holds, with everything
the command can do said once. -/
namespace Sys2Proof.Machine

theorem execNew_cases {n : Nat} {s t : State} (h : execNew n s = .next t) :
    (s.anyIter = true ∧ t = s.complete .eBusy 0) ∨
    (AllIdle s ∧ t = (s.construct n 0).complete .ok 0) := by
  unfold execNew at h
  split at h
  · next hb => exact .inl ⟨hb, (raise_eq_next ..).1 h⟩
  · next hb => exact .inr ⟨(anyIter_eq_false s).1 (by simpa using hb), (finish_eq_next ..).1 h⟩

theorem execWithCapacity_cases {n : Nat} {a : Word} {s t : State} (h : execWithCapacity n a s = .next t) :
    (s.anyIter = true ∧ t = s.complete .eBusy 0) ∨
    (AllIdle s ∧ s.wMax < wordsFor n a.toNat ∧ t = s.complete .eNoMem 0) ∨
    (AllIdle s ∧ wordsFor n a.toNat ≤ s.wMax ∧ t = (s.construct n (wordsFor n a.toNat)).complete .ok 0) := by
  unfold execWithCapacity at h
  split at h
  · next hb => exact .inl ⟨hb, (raise_eq_next ..).1 h⟩
  · next hb =>
    have hi := (anyIter_eq_false s).1 (by simpa using hb)
    split at h
    · next hm => exact .inr (.inl ⟨hi, hm, (raise_eq_next ..).1 h⟩)
    · next hm => exact .inr (.inr ⟨hi, by omega, (finish_eq_next ..).1 h⟩)

theorem execLen_cases {s t : State} (h : execLen s = .next t) :
    (∃ st, readRefusal s = some st ∧ t = s.complete st 0) ∨
    (readRefusal s = none ∧ t = s.complete .ok s.length) := by
  simpa [execLen, unlessRefused_eq_next, finish_eq_next] using h

theorem execCapacity_cases {s t : State} (h : execCapacity s = .next t) :
    (∃ st, readRefusal s = some st ∧ t = s.complete st 0) ∨
    (readRefusal s = none ∧ t = s.complete .ok (BitVec.ofNat 32 (s.wresv.toNat * 32 / s.width))) := by
  simpa [execCapacity, unlessRefused_eq_next, finish_eq_next] using h

theorem execPush_cases {v : Word} {s t : State} (h : execPush v s = .next t) :
    (∃ st, writeRefusal s = some st ∧ t = s.complete st 0) ∨
    (writeRefusal s = none ∧ maxOfWidth s.width < v.toNat ∧ t = s.complete .eRange 0) ∨
    (writeRefusal s = none ∧ v.toNat ≤ maxOfWidth s.width ∧ s.needsWord = true ∧ s.wMax < s.wcount.toNat + 1 ∧
      t = s.complete .eNoMem 0) ∨
    (writeRefusal s = none ∧ v.toNat ≤ maxOfWidth s.width ∧ s.needsWord = false ∧
      lastWord s.width s.length.toNat < s.wMax ∧ t = (s.append v).complete .ok 0) ∨
    (writeRefusal s = none ∧ v.toNat ≤ maxOfWidth s.width ∧ s.needsWord = true ∧ s.wcount.toNat + 1 ≤ s.wMax ∧
      lastWord s.width s.length.toNat < s.wMax ∧ t = (s.allocate.append v).complete .ok 0) := by
  unfold execPush at h
  rcases (unlessRefused_eq_next ..).1 h with h | ⟨hr, h⟩
  · exact .inl h
  split at h
  · next hm => exact .inr (.inl ⟨hr, by simpa [State.outOfRange] using hm, (raise_eq_next ..).1 h⟩)
  next hm =>
  have hv : v.toNat ≤ maxOfWidth s.width := by simpa [State.outOfRange] using hm
  split at h
  · next hn =>
    simp only [Bool.and_eq_true, decide_eq_true_eq] at hn
    exact .inr (.inr (.inl ⟨hr, hv, hn.1, hn.2, (raise_eq_next ..).1 h⟩))
  next hn =>
  obtain ⟨hl, h⟩ := (onElement_eq_next ..).1 h
  have ht := (finish_eq_next ..).1 h
  cases hw : s.needsWord
  · exact .inr (.inr (.inr (.inl ⟨hr, hv, rfl, hl, by simpa [hw] using ht⟩)))
  · simp only [hw, Bool.true_and, decide_eq_true_eq] at hn
    exact .inr (.inr (.inr (.inr ⟨hr, hv, rfl, by omega, hl, by simpa [hw] using ht⟩)))

theorem execGet_cases {a : Word} {s t : State} (h : execGet a s = .next t) :
    (∃ st, readRefusal s = some st ∧ t = s.complete st 0) ∨
    (readRefusal s = none ∧ s.length ≤ a ∧ t = s.complete .absent 0) ∨
    (readRefusal s = none ∧ a < s.length ∧ lastWord s.width a.toNat < s.wMax ∧
      t = s.complete .ok (s.extract a.toNat)) := by
  unfold execGet at h
  rcases (unlessRefused_eq_next ..).1 h with h | ⟨hr, h⟩
  · exact .inl h
  split at h
  · next hl => exact .inr (.inl ⟨hr, hl, (finish_eq_next ..).1 h⟩)
  · next hl =>
    obtain ⟨hw, h⟩ := (onElement_eq_next ..).1 h
    exact .inr (.inr ⟨hr, BitVec.not_le.1 hl, hw, (finish_eq_next ..).1 h⟩)

theorem execGetUnchecked_cases {a : Word} {s t : State} (h : execGetUnchecked a s = .next t) :
    (∃ st, readRefusal s = some st ∧ t = s.complete st 0) ∨
    (readRefusal s = none ∧ s.inStorage a.toNat = false ∧ t = s.complete .eOob 0) ∨
    (readRefusal s = none ∧ s.inStorage a.toNat = true ∧ lastWord s.width a.toNat < s.wMax ∧
      t = s.complete .ok (s.extract a.toNat)) := by
  unfold execGetUnchecked at h
  rcases (unlessRefused_eq_next ..).1 h with h | ⟨hr, h⟩
  · exact .inl h
  split at h
  · next hi => exact .inr (.inl ⟨hr, by simpa using hi, (raise_eq_next ..).1 h⟩)
  · next hi =>
    obtain ⟨hw, h⟩ := (onElement_eq_next ..).1 h
    exact .inr (.inr ⟨hr, by simpa using hi, hw, (finish_eq_next ..).1 h⟩)

theorem execSet_cases {a v : Word} {s t : State} (h : execSet a v s = .next t) :
    (∃ st, writeRefusal s = some st ∧ t = s.complete st 0) ∨
    (writeRefusal s = none ∧ s.length ≤ a ∧ t = s.complete .eBounds 0) ∨
    (writeRefusal s = none ∧ a < s.length ∧ maxOfWidth s.width < v.toNat ∧ t = s.complete .eRange 0) ∨
    (writeRefusal s = none ∧ a < s.length ∧ v.toNat ≤ maxOfWidth s.width ∧ lastWord s.width a.toNat < s.wMax ∧
      t = (s.writeField a.toNat v).complete .ok 0) := by
  unfold execSet at h
  rcases (unlessRefused_eq_next ..).1 h with h | ⟨hr, h⟩
  · exact .inl h
  split at h
  · next hl => exact .inr (.inl ⟨hr, hl, (raise_eq_next ..).1 h⟩)
  next hl =>
  split at h
  · next hm =>
    exact .inr (.inr (.inl ⟨hr, BitVec.not_le.1 hl, by simpa [State.outOfRange] using hm, (raise_eq_next ..).1 h⟩))
  · next hm =>
    obtain ⟨hw, h⟩ := (onElement_eq_next ..).1 h
    exact .inr (.inr (.inr ⟨hr, BitVec.not_le.1 hl, by simpa [State.outOfRange] using hm, hw,
      (finish_eq_next ..).1 h⟩))

theorem execSetUnchecked_cases {a v : Word} {s t : State} (h : execSetUnchecked a v s = .next t) :
    (∃ st, writeRefusal s = some st ∧ t = s.complete st 0) ∨
    (writeRefusal s = none ∧ maxOfWidth s.width < v.toNat ∧ t = s.complete .eRange 0) ∨
    (writeRefusal s = none ∧ v.toNat ≤ maxOfWidth s.width ∧ s.inStorage a.toNat = false ∧ t = s.complete .eOob 0) ∨
    (writeRefusal s = none ∧ v.toNat ≤ maxOfWidth s.width ∧ s.inStorage a.toNat = true ∧
      lastWord s.width a.toNat < s.wMax ∧ t = (s.writeField a.toNat v).complete .ok 0) := by
  unfold execSetUnchecked at h
  rcases (unlessRefused_eq_next ..).1 h with h | ⟨hr, h⟩
  · exact .inl h
  split at h
  · next hm => exact .inr (.inl ⟨hr, by simpa [State.outOfRange] using hm, (raise_eq_next ..).1 h⟩)
  next hm =>
  have hv : v.toNat ≤ maxOfWidth s.width := by simpa [State.outOfRange] using hm
  split at h
  · next hi => exact .inr (.inr (.inl ⟨hr, hv, by simpa using hi, (raise_eq_next ..).1 h⟩))
  · next hi =>
    obtain ⟨hw, h⟩ := (onElement_eq_next ..).1 h
    exact .inr (.inr (.inr ⟨hr, hv, by simpa using hi, hw, (finish_eq_next ..).1 h⟩))

theorem execIter_cases {k : SlotId} {s t : State} (h : execIter k s = .next t) :
    ((s.slot k).state ≠ .idle ∧ t = s.complete .eSlot 0) ∨
    ((s.slot k).state = .idle ∧ ∃ st, readRefusal s = some st ∧ t = s.complete st 0) ∨
    ((s.slot k).state = .idle ∧ readRefusal s = none ∧ t = (s.setSlot k ⟨.borrow, 0⟩).complete .ok 0) := by
  unfold execIter at h
  split at h
  · next hk => exact .inl ⟨hk, (raise_eq_next ..).1 h⟩
  · next hk =>
    have hk : (s.slot k).state = .idle := by simpa using hk
    rcases (unlessRefused_eq_next ..).1 h with h | ⟨hr, h⟩
    · exact .inr (.inl ⟨hk, h⟩)
    · exact .inr (.inr ⟨hk, hr, (finish_eq_next ..).1 h⟩)

theorem execIntoIter_cases {k : SlotId} {s t : State} (h : execIntoIter k s = .next t) :
    ((s.slot k).state ≠ .idle ∧ t = s.complete .eSlot 0) ∨
    ((s.slot k).state = .idle ∧ ∃ st, writeRefusal s = some st ∧ t = s.complete st 0) ∨
    ((s.slot k).state = .idle ∧ writeRefusal s = none ∧ t = (s.setSlot k ⟨.own, 0⟩).complete .ok 0) := by
  unfold execIntoIter at h
  split at h
  · next hk => exact .inl ⟨hk, (raise_eq_next ..).1 h⟩
  · next hk =>
    have hk : (s.slot k).state = .idle := by simpa using hk
    rcases (unlessRefused_eq_next ..).1 h with h | ⟨hr, h⟩
    · exact .inr (.inl ⟨hk, h⟩)
    · exact .inr (.inr ⟨hk, hr, (finish_eq_next ..).1 h⟩)

theorem execIterNext_cases {k : SlotId} {s t : State} (h : execIterNext k s = .next t) :
    ((s.slot k).state = .idle ∧ t = s.complete .eSlot 0) ∨
    ((s.slot k).state ≠ .idle ∧ s.length ≤ (s.slot k).cur ∧ t = s.complete .absent 0) ∨
    ((s.slot k).state ≠ .idle ∧ (s.slot k).cur < s.length ∧ lastWord s.width (s.slot k).cur.toNat < s.wMax ∧
      t = (s.setSlot k ⟨(s.slot k).state, (s.slot k).cur + 1⟩).complete .ok (s.extract (s.slot k).cur.toNat)) := by
  unfold execIterNext at h
  split at h
  · next hk => exact .inl ⟨hk, (raise_eq_next ..).1 h⟩
  next hk =>
  split at h
  · next hl => exact .inr (.inl ⟨hk, hl, (finish_eq_next ..).1 h⟩)
  · next hl =>
    obtain ⟨hw, h⟩ := (onElement_eq_next ..).1 h
    exact .inr (.inr ⟨hk, BitVec.not_le.1 hl, hw, (finish_eq_next ..).1 h⟩)

theorem execIterDrop_cases {k : SlotId} {s t : State} (h : execIterDrop k s = .next t) :
    ((s.slot k).state = .idle ∧ t = s.complete .eSlot 0) ∨
    ((s.slot k).state = .borrow ∧ t = (s.setSlot k Slot.closed).complete .ok 0) ∨
    ((s.slot k).state = .own ∧ t = (s.release.setSlot k Slot.closed).complete .ok 0) := by
  unfold execIterDrop at h
  cases hk : (s.slot k).state
  · exact .inl ⟨rfl, by simpa [hk, raise_eq_next] using h⟩
  · exact .inr (.inl ⟨rfl, by simpa [hk, finish_eq_next] using h⟩)
  · exact .inr (.inr ⟨rfl, by simpa [hk, finish_eq_next] using h⟩)

theorem execRdreg_cases {a : Word} {s t : State} (h : execRdreg a s = .next t) :
    (Reg.ofNumber a = none ∧ t = s.complete .eIllegal 0) ∨
    (∃ r, Reg.ofNumber a = some r ∧ t = s.complete .ok (s.readReg r)) := by
  unfold execRdreg at h
  split at h
  · next r hr => exact .inr ⟨r, hr, (finish_eq_next ..).1 h⟩
  · next hr => exact .inl ⟨hr, (raise_eq_next ..).1 h⟩

theorem execRdword_cases {a : Word} {s t : State} (h : execRdword a s = .next t) :
    (s.wcount ≤ a ∧ t = s.complete .eOob 0) ∨
    (a < s.wcount ∧ a.toNat < s.wMax ∧ t = s.complete .ok (s.word a.toNat)) := by
  unfold execRdword at h
  split at h
  · next hl => exact .inl ⟨hl, (raise_eq_next ..).1 h⟩
  · next hl =>
    obtain ⟨hw, h⟩ := (onWord_eq_next ..).1 h
    exact .inr ⟨BitVec.not_le.1 hl, hw, (finish_eq_next ..).1 h⟩

end Sys2Proof.Machine
end

