-- ==== Sys2Proof/Laws/Claims.lean ====
section
/-! SUPPORT. Lemmas about the predicates of Safety.lean that claims are written with, and the consequences of the invariant that
their proofs use. -/
namespace Sys2Proof.Machine

/-! ## The condition state after a completion -/

/-- ERRLOG as a word, bit by bit: its bits 1:0 and 31:12 are hardwired 0 (10_state.md R34). -/
theorem errlogWord_getLsbD (s : State) (b : Nat) :
    s.errlogWord.getLsbD b = (decide (2 ≤ b) && s.errlog.getLsbD (b - 2)) := by
  have h : s.errlogWord.getLsbD b = BitVec.getLsbD (w := 20 + 10 + 2) (0#20 ++ s.errlog ++ 0#2) b := rfl
  rw [h]
  simp only [BitVec.getLsbD_append, BitVec.getLsbD_zero]
  by_cases h1 : b < 2
  · simp [h1, show ¬ 2 ≤ b by omega]
  · simp only [h1, if_false, show 2 ≤ b by omega, decide_true, Bool.true_and]
    split
    · rfl
    · exact (BitVec.getLsbD_of_ge _ _ (by omega)).symm

/-- What completion adds to ERRLOG (60_exceptions.md R203). -/
theorem errlogWord_complete (s : State) (st : Status) (r : Word) (b : Nat) :
    (s.complete st r).errlogWord.getLsbD b = (s.errlogWord.getLsbD b || decide (2 ≤ b ∧ b = st.code.toNat)) := by
  simp only [errlogWord_getLsbD, complete_errlog, errlogAfter]
  by_cases hb : 2 ≤ b
  · simp only [hb, decide_true, Bool.true_and, true_and]
    by_cases hbig : 12 ≤ b
    · have hst : st.code.toNat < 12 := by cases st <;> decide
      rw [BitVec.getLsbD_of_ge _ _ (by omega), BitVec.getLsbD_of_ge s.errlog _ (by omega)]
      simp; omega
    · by_cases hc : 2 ≤ st.code.toNat
      · simp only [hc, if_true, BitVec.getLsbD_or]
        congr 1
        rw [BitVec.getLsbD_shiftLeft, BitVec.getLsbD_one]
        simp only [show b - 2 < 10 by omega, decide_true, Bool.true_and]
        by_cases e : b = st.code.toNat
        · subst e; simp
        · simp only [e, decide_false]
          by_cases e2 : b - 2 < st.code.toNat - 2
          · simp [e2]
          · simp only [e2, decide_false]; simp; omega
      · simp only [hc, if_false]
        simp; omega
  · simp [hb]

/-- Completion writes the condition state only. -/
theorem sameBlock_complete (s : State) (st : Status) (r : Word) : SameBlock s (s.complete st r) :=
  ⟨⟨rfl, rfl, rfl, rfl, rfl⟩, fun _ => rfl, fun _ => rfl⟩

/-- What has to be shown for `Answers`: the command runs to a completion, and its own writes spare ERRLOG and what is the
host's. -/
theorem answers_of {i : Instr} {s u : State} {st : Status} {r : Word} (h : exec i s = .next (u.complete st r))
    (hr : resultAfter st r = r) (h1 : u.errlog = s.errlog) (h2 : u.params = s.params) (h3 : u.inputs = s.inputs)
    (h4 : u.delivered = s.delivered) : Answers i s st r (u.complete st r) := by
  refine ⟨h, rfl, hr, by simp [hr], fun b => ?_, h2, h3, h4⟩
  rw [errlogWord_complete]; simp [errlogWord_getLsbD, h1]

/-- A command that only finishes with a value. -/
theorem readsValue_of {i : Instr} {s : State} {r : Word} (h : exec i s = finish .ok r s) : ReadsValue i s r :=
  ⟨_, answers_of h rfl rfl rfl rfl rfl, sameBlock_complete ..⟩

/-- A command that only finishes with a status. -/
theorem endsWith_of {i : Instr} {s : State} {st : Status} (h : exec i s = finish st 0 s) : EndsWith i s st :=
  ⟨_, answers_of h (by simp [resultAfter]) rfl rfl rfl rfl, sameBlock_complete ..⟩

/-! ## Consequences of the invariant, and the checks that pass -/

/-- WCOUNT never exceeds W_MAX, with an array or without. -/
theorem wcount_le_wMax {s : State} (h : BlockInv s) : s.wcount.toNat ≤ s.wMax := by
  cases hv : s.valid
  · have := (h.2.1 hv).2.2.1; simp [this]
  · have := h.1 hv; omega

/-- Every word of an element of the array is allocated. -/
theorem lastWord_lt_wcount {s : State} (h : BlockInv s) {i : Nat} (hi : i < s.length.toNat) :
    lastWord s.width i < s.wcount.toNat := by
  cases hv : s.valid
  · have := (h.2.1 hv).2.1; simp [this] at hi
  · have hc := (h.1 hv).1
    have hm : i * s.width + s.width ≤ s.length.toNat * s.width := by
      have := Nat.mul_le_mul_right s.width (Nat.succ_le_of_lt hi)
      rwa [Nat.succ_mul] at this
    have := width_pos s
    rw [lastWord_eq _ _ (width_pos s) (width_le s)]
    omega

/-- A check that refuses nothing leaves the command to go on. -/
theorem unlessRefused_none {refusal : Option Status} {s : State} {go : Result} (h : refusal = none) :
    unlessRefused refusal s go = go := by subst h; rfl

/-- An access to an element whose words exist goes on. -/
theorem onElement_of_lt {i : Nat} {s : State} {go : Result} (h : lastWord s.width i < s.wMax) :
    onElement i s go = go := by
  unfold onElement onWord; rw [if_pos h]

/-- The range check of a value that fits (60 R201). -/
theorem outOfRange_eq_false {s : State} {v : Word} (h : v.toNat < 2 ^ s.width) : s.outOfRange v = false := by
  unfold State.outOfRange maxOfWidth; exact decide_eq_false (by omega)

/-- The range check of a value that does not fit. -/
theorem outOfRange_eq_true {s : State} {v : Word} (h : 2 ^ s.width ≤ v.toNat) : s.outOfRange v = true := by
  have := Nat.two_pow_pos s.width
  unfold State.outOfRange maxOfWidth; exact decide_eq_true (by omega)

/-- One word write, seen bit by bit. -/
theorem storageBit_writeWord (s : State) (k : Nat) (v : Word) (b : Nat) :
    (s.writeWord k v).storageBit b = if b / 32 = k then v.getLsbD (b % 32) else s.storageBit b := by
  unfold State.storageBit; rw [word_writeWord]; split <;> rfl

/-- A reset leaves the storage canonical and within W_MAX, whatever it then holds. -/
theorem storageInv_applyReset (s : State) (contents : List (Nat × Word)) : StorageInv (s.applyReset contents) :=
  Storage.ofCells_spec s.wMax contents

end Sys2Proof.Machine
end

