-- ==== Sys2Proof/Laws/Decode.lean ====
section
/-! SUPPORT. The fields of an encoded command word, and the rows of the opcode table. -/
namespace Sys2Proof

/-! ## The fields of a word made of fields (30_encoding.md R72) -/

/-- The bits of a word made of fields. -/
theorem commandWord_getLsbD (n : BitVec 5) (k : BitVec 2) (op : BitVec 4) (i : Nat) :
    (commandWord n k op).getLsbD i =
      if i < 4 then op.getLsbD i else if i < 6 then k.getLsbD (i - 4) else if i < 8 then false else n.getLsbD (i - 8) := by
  have h : (commandWord n k op).getLsbD i =
      BitVec.getLsbD (w := 19 + 5 + 2 + 2 + 4) (0#19 ++ n ++ 0#2 ++ k ++ op) i := rfl
  rw [h]
  simp only [BitVec.getLsbD_append, BitVec.getLsbD_zero]
  split
  · rfl
  · have h1 : (i - 4 < 2) ↔ i < 6 := by omega
    have h2 : (i - 4 - 2 < 2) ↔ i < 8 := by omega
    have h3 : i - 4 - 2 - 2 = i - 8 := by omega
    simp only [h1, h2, h3]
    split
    · rfl
    · split
      · rfl
      · split
        · rfl
        · exact (BitVec.getLsbD_of_ge _ _ (by omega)).symm

@[simp] theorem opField_commandWord (n : BitVec 5) (k : BitVec 2) (op : BitVec 4) :
    opField (commandWord n k op) = op := by
  apply BitVec.eq_of_getLsbD_eq; intro i hi
  simp only [opField, BitVec.getLsbD_extractLsb', commandWord_getLsbD]
  simp [hi]
@[simp] theorem slotField_commandWord (n : BitVec 5) (k : BitVec 2) (op : BitVec 4) :
    slotField (commandWord n k op) = k := by
  apply BitVec.eq_of_getLsbD_eq; intro i hi
  simp only [slotField, BitVec.getLsbD_extractLsb', commandWord_getLsbD]
  simp [hi, show 4 + i < 6 by omega]
@[simp] theorem reservedLow_commandWord (n : BitVec 5) (k : BitVec 2) (op : BitVec 4) :
    reservedLow (commandWord n k op) = 0 := by
  apply BitVec.eq_of_getLsbD_eq; intro i hi
  simp only [reservedLow, BitVec.getLsbD_extractLsb', commandWord_getLsbD]
  simp [show ¬ 6 + i < 4 by omega, show 6 + i < 8 by omega]
@[simp] theorem nm1Field_commandWord (n : BitVec 5) (k : BitVec 2) (op : BitVec 4) :
    nm1Field (commandWord n k op) = n := by
  apply BitVec.eq_of_getLsbD_eq; intro i hi
  simp only [nm1Field, BitVec.getLsbD_extractLsb', commandWord_getLsbD]
  simp [hi, show ¬ 8 + i < 4 by omega, show ¬ 8 + i < 6 by omega]
@[simp] theorem reservedHigh_commandWord (n : BitVec 5) (k : BitVec 2) (op : BitVec 4) :
    reservedHigh (commandWord n k op) = 0 := by
  apply BitVec.eq_of_getLsbD_eq; intro i hi
  simp only [reservedHigh, BitVec.getLsbD_extractLsb', commandWord_getLsbD]
  rw [if_neg (by omega), if_neg (by omega), if_neg (by omega), BitVec.getLsbD_of_ge n _ (by omega)]
  simp

/-- A word made of fields is legal exactly when OP is assigned and uses every field that is not 0 (R77). -/
theorem illegal_commandWord (n : BitVec 5) (k : BitVec 2) (op : BitVec 4) :
    illegal (commandWord n k op) =
      (op == 0 || (k != 0 && !opUsesSlot op) || (n != 0 && !opUsesNm1 op)) := by
  simp [illegal]

/-- The NM1 field of a width in range is the width minus one. -/
theorem nm1OfWidth_toNat (n : Nat) (h : widthOk n = true) : (nm1OfWidth n).toNat + 1 = n := by
  simp only [widthOk, Bool.and_eq_true, decide_eq_true_eq] at h
  simp only [nm1OfWidth, BitVec.toNat_ofNat]; omega

/-! ## The opcode table (R74) -/

/-- No word selects two rows: two rows differ in a bit that both masks fix. -/
theorem opcodeRows_disjoint :
    opcodeRows.Pairwise fun r q => r.pattern &&& (r.mask &&& q.mask) ≠ q.pattern &&& (r.mask &&& q.mask) := by
  decide

end Sys2Proof
end

