-- ==== Sys2Proof/Laws/PerInstr.lean ====
section
/-! SUPPORT. Laws stated of every instruction, one lemma per constructor. -/
namespace Sys2Proof.Laws.EncodeLegal

/-- A well-formed instruction's command word is legal (30_encoding.md R77). -/
def Statement (i : Instr) : Prop := i.wellFormed = true → illegal (encode i).word = false

theorem new (width : Nat) : Statement (.new width) := fun _ => by simp [encode, illegal_commandWord, opUsesNm1]
theorem withCapacity (width : Nat) (n : Word) : Statement (.withCapacity width n) :=
  fun _ => by simp [encode, illegal_commandWord, opUsesNm1]
theorem len : Statement .len := fun _ => by simp [encode, illegal_commandWord]
theorem capacity : Statement .capacity := fun _ => by simp [encode, illegal_commandWord]
theorem push (value : Word) : Statement (.push value) := fun _ => by simp [encode, illegal_commandWord]
theorem get (index : Word) : Statement (.get index) := fun _ => by simp [encode, illegal_commandWord]
theorem getUnchecked (index : Word) : Statement (.getUnchecked index) := fun _ => by simp [encode, illegal_commandWord]
theorem set (index value : Word) : Statement (.set index value) := fun _ => by simp [encode, illegal_commandWord]
theorem setUnchecked (index value : Word) : Statement (.setUnchecked index value) :=
  fun _ => by simp [encode, illegal_commandWord]
theorem iter (slot : SlotId) : Statement (.iter slot) := fun _ => by simp [encode, illegal_commandWord, opUsesSlot]
theorem intoIter (slot : SlotId) : Statement (.intoIter slot) :=
  fun _ => by simp [encode, illegal_commandWord, opUsesSlot]
theorem iterNext (slot : SlotId) : Statement (.iterNext slot) :=
  fun _ => by simp [encode, illegal_commandWord, opUsesSlot]
theorem iterDrop (slot : SlotId) : Statement (.iterDrop slot) :=
  fun _ => by simp [encode, illegal_commandWord, opUsesSlot]
theorem rdreg (number : Word) : Statement (.rdreg number) := fun _ => by simp [encode, illegal_commandWord]
theorem rdword (index : Word) : Statement (.rdword index) := fun _ => by simp [encode, illegal_commandWord]

end Sys2Proof.Laws.EncodeLegal
end

