-- ==== Sys2Proof/Tests/Slice0.lean ====
section
/-! SUPPORT. The model's own tests. Words are written out from 30_encoding.md R72 to R75 field by field
(CMD[31:13], NM1, CMD[7:6], SLOT, OP); expected responses and words come from the vectors of 95_test_vectors.md named
beside each test, which its section 0 says no run of any implementation produced. Every test takes one step. The
`witness_` theorems show a state and operands that meet the hypotheses of one statement together. -/
namespace Sys2Proof.Tests
open Sys2Proof Sys2Proof.Machine

/-! ## Well-formedness -/

theorem test_new_of_width_0_refused : Instr.wellFormed (.new 0) = false := by decide
theorem test_new_of_width_33_refused : Instr.wellFormed (.new 33) = false := by decide
theorem test_withCapacity_of_width_0_refused : Instr.wellFormed (.withCapacity 0 1) = false := by decide
theorem test_withCapacity_of_width_33_refused : Instr.wellFormed (.withCapacity 33 1) = false := by decide
theorem test_widths_1_and_32_accepted :
    Instr.wellFormed (.new 1) = true ∧ Instr.wellFormed (.withCapacity 32 0) = true := by decide

/-! ## Decoding (R72 to R75, and the words of 95 section 2.2) -/

/-- A command word written field by field, most significant field first. -/
def word (high : BitVec 19) (nm1 : BitVec 5) (low : BitVec 2) (slot : BitVec 2) (op : BitVec 4) : Word :=
  high ++ nm1 ++ low ++ slot ++ op

theorem test_decode_new : decode ⟨word 0 0b01000 0 0b00 0b0001, 7, 7⟩ = some (.new 9) := by decide
theorem test_decode_withCapacity :
    decode ⟨word 0 0b11111 0 0b00 0b0010, 5, 7⟩ = some (.withCapacity 32 5) := by decide
theorem test_decode_len : decode ⟨word 0 0 0 0b00 0b0011, 0x55, 0x66⟩ = some .len := by decide
theorem test_decode_capacity : decode ⟨word 0 0 0 0b00 0b0100, 0, 0⟩ = some .capacity := by decide
theorem test_decode_push : decode ⟨word 0 0 0 0b00 0b0101, 0xDEADBEEF, 2⟩ = some (.push 2) := by decide
theorem test_decode_get : decode ⟨word 0 0 0 0b00 0b0110, 3, 9⟩ = some (.get 3) := by decide
theorem test_decode_getUnchecked : decode ⟨word 0 0 0 0b00 0b0111, 5, 9⟩ = some (.getUnchecked 5) := by decide
theorem test_decode_set : decode ⟨word 0 0 0 0b00 0b1000, 3, 170⟩ = some (.set 3 170) := by decide
theorem test_decode_setUnchecked : decode ⟨word 0 0 0 0b00 0b1001, 6, 3⟩ = some (.setUnchecked 6 3) := by decide
theorem test_decode_iter : decode ⟨word 0 0 0 0b11 0b1010, 0, 0⟩ = some (.iter 3) := by decide
theorem test_decode_intoIter : decode ⟨word 0 0 0 0b01 0b1011, 0, 0⟩ = some (.intoIter 1) := by decide
theorem test_decode_iterNext : decode ⟨word 0 0 0 0b10 0b1100, 1, 2⟩ = some (.iterNext 2) := by decide
theorem test_decode_iterDrop : decode ⟨word 0 0 0 0b10 0b1101, 0, 0⟩ = some (.iterDrop 2) := by decide
theorem test_decode_rdreg : decode ⟨word 0 0 0 0b00 0b1110, 0x17, 0⟩ = some (.rdreg 0x17) := by decide
theorem test_decode_rdword : decode ⟨word 0 0 0 0b00 0b1111, 1, 0⟩ = some (.rdword 1) := by decide

/-- Vectors D-1 to D-10. -/
theorem test_decode_rejects_illegal_words :
    [0x0, 0x811, 0x803, 0x841, 0x2005, 0x15, 0x10C, 0x4C, 0x1E, 0x80E].all
      (fun w => decide (decode ⟨w, 0, 1⟩ = none)) = true := by decide
/-- The legal words listed in 95 section 2.2, encoded. -/
theorem test_encode_listed_words :
    (encode (.new 1)).word = 0x1 ∧ (encode (.new 31)).word = 0x1E01 ∧ (encode (.withCapacity 10 0)).word = 0x902 ∧
    (encode (.iter 3)).word = 0x3A ∧ (encode (.iterDrop 2)).word = 0x2D := by decide
theorem test_table_word_reads_its_operands :
    decodeTableWord 96 0x000000AA0000000300000008 = some (.set 3 170) ∧ decodeTableWord 32 0x802 = some (.withCapacity 9 0) := by
  decide
theorem test_withFetchWord_runs_its_command :
    decode ((State.reset.withFetchWord 32 0x801).inputs.head?.elim ⟨0, 0, 0⟩ fun | .command c => c | _ => ⟨0, 0, 0⟩) =
      some (.new 9) := by decide

/-! ## States to step from -/

/-- A state that holds an array: CFG, LENGTH, WCOUNT, WRESV and its words. -/
def array (width length wcount wresv : Nat) (words : Storage) : State :=
  { State.reset with
    nm1 := nm1OfWidth width
    valid := true
    length := BitVec.ofNat 32 length
    wcount := BitVec.ofNat 32 wcount
    wresv := BitVec.ofNat 32 wresv
    storage := words }

/-- Setup S9 of 95 section 0. -/
def s9 : State := array 9 5 2 4 [(0, 0xF7F7F9FB), (1, 0x00001FFF)]
/-- Setup S8 of 95 section 0. -/
def s8 : State := array 8 5 2 4 [(0, 0xFEFDFCFB), (1, 0x000000FF)]
/-- Section 1.1 after step 4: three elements of 9 bits. -/
def s9three : State := array 9 3 1 4 [(0, 0x07F7F9FB)]
/-- S9 with a borrowing iterator in slot 0, and with an owning one in slot 2, at a cursor. -/
def s9borrowed (cur : Word) : State := s9.setSlot 0 ⟨.borrow, cur⟩
def s9owned (cur : Word) : State := s9.setSlot 2 ⟨.own, cur⟩
/-- A block of `n` words that holds the same. -/
def withWMax (n : Fin 134217727) (s : State) : State := { s with params := { s.params with wMaxPred := n } }
/-- Vector E12's start: 9 bits, three elements, and no second word to allocate. -/
def full9 : State := withWMax 0 (array 9 3 1 1 [(0, 0x00040201)])

/-- The next state of an outcome. -/
def nextOf : Result → Option State
  | .next t => some t
  | _       => none

/-- The status and result a command answers with. -/
def answer (i : Instr) (s : State) : Option (Status × Word) := (nextOf (exec i s)).map fun t => (t.status, t.result)

theorem exec_of_nextOf {i : Instr} {s t : State} (h : nextOf (exec i s) = some t) : exec i s = .next t := by
  cases he : exec i s <;> rw [he] at h <;> simp_all [nextOf]

theorem step_of_nextOf {s t : State} (h : nextOf (step s) = some t) : step s = .next t := by
  cases he : step s <;> rw [he] at h <;> simp_all [nextOf]

/-! ## One step of each command -/

/-- L1; L3: the widths' ends. -/
theorem test_new : (nextOf (exec (.new 9) State.reset)).map (fun t => (t.cfgWord, t.maxvWord)) = some (0x108, 0x1FF) := by decide
theorem test_new_busy : answer (.new 9) (s9borrowed 0) = some (.eBusy, 0) := by decide
/-- L4, L17. -/
theorem test_withCapacity_reserves :
    (nextOf (exec (.withCapacity 9 10) State.reset)).map (·.wresv) = some 3 ∧
    (nextOf (exec (.withCapacity 1 33) State.reset)).map (·.wresv) = some 2 := by decide
/-- L13: W_MAX = 4. -/
theorem test_withCapacity_nomem :
    answer (.withCapacity 32 0xFFFFFFFF) (withWMax 3 State.reset) = some (.eNoMem, 0) := by decide
theorem test_len : answer .len s9 = some (.ok, 5) := by decide
theorem test_len_without_array : answer .len State.reset = some (.eNoArray, 0) := by decide
/-- E15. -/
theorem test_capacity_while_borrowed : answer .capacity (s9borrowed 0) = some (.ok, 14) := by decide
/-- E16. -/
theorem test_capacity_moved : answer .capacity (s9owned 0) = some (.eMoved, 0) := by decide
/-- Section 1.1 step 5: a spanning PUSH that allocates. -/
theorem test_push_spans_into_a_new_word :
    (nextOf (exec (.push 510) s9three)).map (fun t => (t.word 0, t.word 1, t.wcount, t.length)) =
      some (0xF7F7F9FB, 0x0000000F, 2, 4) := by decide
/-- E3, program P5: PUSH ORs onto slack that SET_UNCHECKED wrote. -/
theorem test_push_ors_onto_slack :
    (nextOf (exec (.push 1) (array 9 5 2 4 [(0, 0xF7F7F9FB), (1, 0x00201FFF)]))).map (fun t => t.word 1) =
      some 0x00203FFF := by decide
theorem test_get_spanning : answer (.get 3) s9 = some (.ok, 510) := by decide
theorem test_get_absent : answer (.get 5) s9 = some (.absent, 0) := by decide
theorem test_getUnchecked_slack :
    answer (.getUnchecked 6) (array 9 5 2 4 [(0, 0xF7F7F9FB), (1, 0x00C01FFF)]) = some (.ok, 3) := by decide
theorem test_getUnchecked_oob : answer (.getUnchecked 0xFFFFFFFF) s9 = some (.eOob, 0) := by decide
/-- E4. -/
theorem test_set_spanning :
    (nextOf (exec (.set 3 170) s9)).map (fun t => (t.word 0, t.word 1)) = some (0x57F7F9FB, 0x00001FF5) := by decide
/-- E5: bounds before range. -/
theorem test_set_bounds_before_range : answer (.set 5 600) s9 = some (.eBounds, 0) := by decide
/-- E2. -/
theorem test_setUnchecked_slack :
    (nextOf (exec (.setUnchecked 6 3) s9)).map (fun t => (t.word 1, t.length)) = some (0x00C01FFF, 5) := by decide
/-- E7: range before words. -/
theorem test_setUnchecked_range_before_oob : answer (.setUnchecked 7 600) s9 = some (.eRange, 0) := by decide
theorem test_iter : (nextOf (exec (.iter 0) s9)).map (fun t => t.slot 0) = some ⟨.borrow, 0⟩ := by decide
theorem test_iter_moved : answer (.iter 0) (s9owned 0) = some (.eMoved, 0) := by decide
theorem test_intoIter : (nextOf (exec (.intoIter 1) s9)).map (fun t => t.slot 1) = some ⟨.own, 0⟩ := by decide
theorem test_intoIter_borrowed : answer (.intoIter 1) (s9borrowed 0) = some (.eBorrowed, 0) := by decide
/-- I1. -/
theorem test_iterNext_yields :
    (nextOf (exec (.iterNext 0) (s9borrowed 3))).map (fun t => (t.result, (t.slot 0).cur)) = some (510, 4) := by decide
theorem test_iterNext_exhausted :
    (nextOf (exec (.iterNext 0) (s9borrowed 5))).map (fun t => (t.status, (t.slot 0).cur)) = some (.absent, 5) := by decide
/-- I5. -/
theorem test_iterDrop_of_owner_releases :
    (nextOf (exec (.iterDrop 2) (s9owned 2))).map (fun t => (t.cfgWord, t.length, t.wcount, t.wresv)) =
      some (0, 0, 0, 0) := by decide
theorem test_iterDrop_idle : answer (.iterDrop 3) s9 = some (.eSlot, 0) := by decide
/-- I1, and O1's reserved numbers. -/
theorem test_rdreg_cursor : answer (.rdreg 0x14) (s9borrowed 5) = some (.ok, 5) := by decide
theorem test_rdreg_reserved : answer (.rdreg 0x18) s9 = some (.eIllegal, 0) := by decide
/-- O4, I11. -/
theorem test_rdword_while_moved : answer (.rdword 1) (s9owned 1) = some (.ok, 0x00001FFF) := by decide
theorem test_rdword_oob : answer (.rdword 2) s9 = some (.eOob, 0) := by decide
/-- X1's first error bits: E_NOARRAY is bit 6. -/
theorem test_errlog_bit : (nextOf (exec .len State.reset)).map (·.errlogWord) = some 0x40 := by decide

/-! ## Hypotheses that are met -/

theorem inv_reset : BlockInv State.reset := by decide
theorem inv_s9 : BlockInv s9 := by decide
theorem inv_s9borrowed : BlockInv (s9borrowed 2) := by decide
theorem inv_s9owned : BlockInv (s9owned 5) := by decide
theorem inv_full9 : BlockInv full9 := by decide

/-- Every bit of S9's last word above the fifth element is 0. -/
theorem slack_s9 : SlackZero s9 := by
  intro b h1 h2
  have h1 : 45 ≤ b := h1
  have h2 : b < 64 := h2
  have : ∀ c : Fin 64, 45 ≤ c.val → s9.storageBit c.val = false := by decide
  exact this ⟨b, h2⟩ h1

/-- A command that runs to a next state with property `p`. -/
theorem exists_next {i : Instr} {s : State} (p : State → Bool) (h : (nextOf (exec i s)).any p = true) :
    ∃ t, exec i s = .next t ∧ p t = true := by
  cases he : exec i s <;> simp_all [nextOf]

/-- The same of a command word. -/
theorem exists_run {c : Command} {s : State} (p : State → Bool) (h : (nextOf (runCommand c s)).any p = true) :
    ∃ t, runCommand c s = .next t ∧ p t = true := by
  cases he : runCommand c s <;> simp_all [nextOf]

/-- A state whose host presents one command next. -/
def asked (c : Command) (s : State) : State := { s with inputs := [.command c] }

/-- The first and the last word of the storage. -/
theorem witness_ResetLeavesTheStateOfR240 :
    Storage.wf [(0, 5), (1023, 7)] ∧ ∀ c ∈ ([(0, 5), (1023, 7)] : Storage), c.1 < s9.wMax := by decide
theorem witness_StepKeepsTheInvariant :
    BlockInv (asked (encode (.push 1)) s9) ∧ (nextOf (step (asked (encode (.push 1)) s9))).isSome ∧ s9.valid = true := by
  decide
theorem witness_RunsNeverStop : BlockInv (asked ⟨0, 0, 0⟩ s9) := by decide
theorem witness_DecodeOfEncodeIsTheInstruction :
    (Instr.new 32).wellFormed = true ∧ (Instr.setUnchecked 0xFFFFFFFF 0xFFFFFFFF).wellFormed = true := by decide
theorem witness_EncodeOfDecodeIsTheWord : decode ⟨0x1F02, 0xFFFFFFFF, 1⟩ = some (.withCapacity 32 0xFFFFFFFF) := by decide
/-- One word per row, the last slot number, and a word no row takes. -/
theorem witness_WordsDecodeByTheirRows :
    (0x00001F01 : Word) &&& 0xFFFFE0FF = 0x00000001 ∧ (0x00001F02 : Word) &&& 0xFFFFE0FF = 0x00000002 ∧
    (3 : SlotId).val = (0x3A : Word).toNat / 16 % 4 ∧ (0x3A : Word) &&& 0xFFFFFFCF = 0x0000000A ∧
    (0x3B : Word) &&& 0xFFFFFFCF = 0x0000000B ∧ (0x3C : Word) &&& 0xFFFFFFCF = 0x0000000C ∧
    (0x3D : Word) &&& 0xFFFFFFCF = 0x0000000D ∧ ∀ r ∈ opcodeRows, (0x00000010 : Word) &&& r.mask ≠ r.pattern := by decide
/-- A word of each kind of illegality, at the first value of its field. -/
theorem witness_IllegalWordsCompleteWithEIllegal :
    [0x0, 0x2005, 0x45, 0x15, 0x105].all (fun w => decide (decode ⟨w, 0, 0⟩ = none)) = true ∧
    (asked ⟨0x2005, 0, 0⟩ s9).inputs = .command ⟨0x2005, 0, 0⟩ :: [] := by decide
theorem witness_UnusedOperandsHaveNoEffect :
    decode ⟨0x15, 1, 2⟩ = none ∧ (0x5 : Word).toNat % 16 ∉ [0x2, 0x6, 0x7, 0x8, 0x9, 0xE, 0xF] ∧ (0x6 : Word).toNat % 16 ∉ [0x5, 0x8, 0x9] := by decide
theorem witness_StepRunsTheDecodedCommand :
    (asked ⟨0x6, 3, 0⟩ s9).inputs = .command ⟨0x6, 3, 0⟩ :: [] ∧ decode ⟨0x6, 3, 0⟩ = some (.get 3) ∧
    (asked ⟨0x0, 3, 0⟩ s9).inputs = .command ⟨0x0, 3, 0⟩ :: [] ∧ decode ⟨0x0, 3, 0⟩ = none ∧
    ({ s9 with inputs := [.reset [(0, 7)]] } : State).inputs = .reset [(0, 7)] :: [] ∧
    ({ s9 with inputs := [.takeResponse] } : State).inputs = .takeResponse :: [] ∧ s9.inputs = [] := by decide
theorem witness_ResponsesComeInCommandOrder :
    let cs : List Command := [encode (.get 3), ⟨0, 0, 0⟩, encode .len]
    let s : State := { s9 with inputs := cs.map Input.command ++ [.takeResponse] }
    BlockInv s ∧ s.rsp = none ∧ s.inputs = cs.map Input.command ++ [.takeResponse] := by decide
theorem witness_CompletionWritesTheConditionState :
    ∃ t, runCommand ⟨0x8, 5, 0⟩ s9 = .next t ∧ decide (2 ≤ t.status.code.toNat) = true := exists_run _ (by decide)
theorem witness_StatusAndResultHoldTheLastResponse :
    ∃ t, runCommand ⟨0x6, 5, 0⟩ s9 = .next t ∧ decide (t.status ≠ .ok) = true := exists_run _ (by decide)
theorem witness_ErrlogRecordsErrorsUntilReset :
    (∃ t, runCommand ⟨0x8, 5, 0⟩ s9 = .next t ∧ t.errlogWord.getLsbD 3 = true) ∧
    (∃ t, step (asked (encode .len) ({ s9 with errlog := 8 } : State)) = .next t) ∧
    ({ s9 with errlog := 8 } : State).errlogWord.getLsbD 5 = true :=
  ⟨exists_run (fun t => t.errlogWord.getLsbD 3) (by decide), ⟨_, rfl⟩, by decide⟩
theorem witness_StatusesComeFromTheirCommands :
    ∃ t, exec (.push 512) s9 = .next t ∧ decide (t.status = .eRange) = true := exists_next _ (by decide)
theorem witness_CommandsReportTheirFirstCause :
    BlockInv s9 ∧ decode ⟨0x8, 5, 600⟩ = some (.set 5 600) ∧ reported (.set 5 600) s9 = .eBounds ∧ decode ⟨0x0, 0, 0⟩ = none := by
  decide
theorem witness_RefusalsFollowTheOwnershipTable :
    (BlockInv State.reset ∧ State.reset.valid = false) ∧ (BlockInv s9 ∧ s9.valid = true ∧ AllIdle s9) ∧
    (BlockInv (s9borrowed 2) ∧ (s9borrowed 2).borrowed = true ∧ ((s9borrowed 2).slot 1).state = .idle) ∧
    BlockInv (s9owned 5) ∧ (s9owned 5).moved = true ∧ ((s9owned 5).slot 1).state = .idle :=
  ⟨⟨inv_reset, by decide⟩, ⟨inv_s9, by decide⟩, ⟨inv_s9borrowed, by decide⟩, inv_s9owned, by decide⟩
theorem witness_FailedCommandsLeaveTheNextAsItWas :
    BlockInv s9 ∧ (∃ m, runCommand ⟨0x5, 0, 512⟩ s9 = .next m ∧ decide (2 ≤ m.status.code.toNat) = true) ∧
    Instr.rdreg 0x04 ≠ .rdreg 0x05 ∧ Instr.rdreg 0x04 ≠ .rdreg 0x06 ∧ Instr.rdreg 0x04 ≠ .rdreg 0x07 :=
  ⟨inv_s9, exists_run _ (by decide), by decide⟩
theorem witness_NewConstructsAnEmptyArray : 1 ≤ 32 ∧ 32 ≤ 32 ∧ AllIdle s9 := by decide
/-- The last request that fits in 1024 words, and the first that does not (N = 32). -/
theorem witness_WithCapacityReservesTheWordsNeeded :
    AllIdle s9 ∧ 32 * (1024#32).toNat ≤ 32 * s9.wMax ∧ 32 * s9.wMax < 32 * (1025#32).toNat ∧ ¬ AllIdle (s9borrowed 0) := by
  decide
theorem witness_LenReturnsLength : (s9borrowed 2).valid = true ∧ NotMoved (s9borrowed 2) := by decide
theorem witness_CapacityReturnsTheElementsReserved : BlockInv s9 ∧ s9.valid = true ∧ NotMoved s9 := by decide
theorem witness_CapacityAfterWithCapacityIsEnough :
    ∃ t, exec (.withCapacity 9 10) s9 = .next t ∧
      decide (t.status = .ok ∧ (nextOf (exec .capacity t)).map (·.result) = some 10) = true := exists_next _ (by decide)
theorem witness_GrowObeysItsLaw : 1024 ≤ s9.wMax ∧ s9.params.growPoints = [] := by decide
/-- For OrFieldOrsIntoTheElementsBits and WriteFieldReplacesTheElementsBits. -/
theorem witness_insertions_of_a_value_that_fits : (511#32).toNat < 2 ^ s9.width := by decide
/-- Room for one more element, and none. -/
theorem witness_PushAppendsOneElement :
    (BlockInv s9 ∧ s9.valid = true ∧ AllIdle s9 ∧ (511#32).toNat < 2 ^ s9.width ∧
      s9.length.toNat * s9.width + s9.width ≤ 32 * s9.wMax) ∧
    BlockInv full9 ∧ full9.valid = true ∧ AllIdle full9 ∧ (2#32).toNat < 2 ^ full9.width ∧
      32 * full9.wMax < full9.length.toNat * full9.width + full9.width :=
  ⟨⟨inv_s9, by decide⟩, inv_full9, by decide⟩
theorem witness_PushOntoCleanSlackStoresTheValue :
    BlockInv s9 ∧ SlackZero s9 ∧ ∃ t, exec (.push 1) s9 = .next t ∧ decide (t.status = .ok) = true :=
  ⟨inv_s9, slack_s9, exists_next _ (by decide)⟩
/-- The last element, and the first index past it. -/
theorem witness_GetReadsElementsOfTheArray :
    BlockInv s9 ∧ s9.valid = true ∧ NotMoved s9 ∧ (4#32).toNat < s9.length.toNat ∧ s9.length.toNat ≤ (5#32).toNat := by
  decide
/-- The last index whose words are allocated, and the first past it. -/
theorem witness_GetUncheckedReadsAllocatedBits :
    BlockInv s9 ∧ s9.valid = true ∧ NotMoved s9 ∧ ((6#32).toNat * s9.width + (s9.width - 1)) / 32 < s9.wcount.toNat ∧
    s9.wcount.toNat ≤ ((7#32).toNat * s9.width + (s9.width - 1)) / 32 := by decide
theorem witness_SetReplacesOneElement :
    BlockInv s9 ∧ s9.valid = true ∧ AllIdle s9 ∧ (4#32).toNat < s9.length.toNat ∧ (511#32).toNat < 2 ^ s9.width ∧
    s9.length.toNat ≤ (5#32).toNat ∧ 2 ^ s9.width ≤ (512#32).toNat := by decide
theorem witness_SetUncheckedReplacesAllocatedBits :
    BlockInv s9 ∧ s9.valid = true ∧ AllIdle s9 ∧ ((6#32).toNat * s9.width + (s9.width - 1)) / 32 < s9.wcount.toNat ∧
    s9.wcount.toNat ≤ ((7#32).toNat * s9.width + (s9.width - 1)) / 32 ∧ (511#32).toNat < 2 ^ s9.width ∧
    2 ^ s9.width ≤ (512#32).toNat := by decide
theorem witness_SetChangesNoOtherElement :
    ∃ t, exec (.set 3 170) s9 = .next t ∧ decide (t.status = .ok ∧ 2 ≠ (3#32).toNat) = true := exists_next _ (by decide)
theorem witness_SetThenGetReturnsTheValue :
    BlockInv s9 ∧ ∃ t, exec (.setUnchecked 4 170) s9 = .next t ∧
      decide (t.status = .ok ∧ (4#32).toNat < t.length.toNat) = true := ⟨inv_s9, exists_next _ (by decide)⟩
theorem witness_PushedValuesComeBack :
    BlockInv State.reset ∧ (Instr.new 9).wellFormed = true ∧
    ∃ s, exec (.new 9) State.reset = .next s ∧ s.status = .ok ∧ ∃ t, PushesOk [507, 508] s t := by
  refine ⟨inv_reset, by decide, _, rfl, rfl, _, _, exec_of_nextOf rfl, ?_, _, exec_of_nextOf rfl, ?_, rfl⟩ <;> decide
theorem witness_SlackBitsStayZero :
    BlockInv s9 ∧ SlackZero s9 ∧ (4#32).toNat < s9.length.toNat ∧ ∃ t, exec (.setUnchecked 4 1) s9 = .next t ∧
      decide (t.status = .ok) = true := ⟨inv_s9, slack_s9, by decide, exists_next _ (by decide)⟩
theorem witness_IterOpensABorrowingIterator :
    (s9borrowed 2).valid = true ∧ NotMoved (s9borrowed 2) ∧ ((s9borrowed 2).slot 3).state = .idle := by decide
theorem witness_IntoIterMovesTheArray : s9.valid = true ∧ AllIdle s9 := by decide
/-- The last element, an exhausted iterator, and an idle slot. -/
theorem witness_IterNextYieldsTheElementAtItsCursor :
    (BlockInv (s9borrowed 4) ∧ ((s9borrowed 4).slot 0).state ≠ .idle ∧
      ((s9borrowed 4).slot 0).cur.toNat < (s9borrowed 4).length.toNat) ∧
    (BlockInv (s9owned 5) ∧ ((s9owned 5).slot 2).state ≠ .idle ∧
      (s9owned 5).length.toNat ≤ ((s9owned 5).slot 2).cur.toNat) ∧ BlockInv s9 ∧ (s9.slot 0).state = .idle :=
  ⟨⟨by decide, by decide⟩, ⟨inv_s9owned, by decide⟩, inv_s9, by decide⟩
theorem witness_IterDropClosesItsIterator :
    ((s9borrowed 2).slot 0).state = .borrow ∧ ((s9owned 5).slot 2).state = .own ∧ (s9.slot 0).state = .idle := by decide
theorem witness_OpenIteratorsFixTheArray :
    BlockInv (s9borrowed 2) ∧ ((s9borrowed 2).slot 0).state ≠ .idle ∧ Instr.iterNext 0 ≠ .iterDrop 0 ∧
    ∃ t, exec (.iterNext 0) (s9borrowed 2) = .next t ∧ decide (t.status = .ok) = true :=
  ⟨inv_s9borrowed, by decide, by decide, exists_next _ (by decide)⟩
theorem witness_IterationYieldsTheElementsInOrder :
    BlockInv s9 ∧ ∃ s, exec (.iter 0) s9 = .next s ∧ s.status = .ok ∧ (∀ i ∈ [Instr.iterNext 0], i ≠ .iterDrop 0) ∧
      responsesOf [.iterNext 0] s = some [⟨.ok, 507⟩] :=
  ⟨inv_s9, _, exec_of_nextOf rfl, by decide, by decide, by decide⟩
theorem witness_ReleasedArraysAreUnreachable :
    BlockInv (s9owned 5) ∧ ((s9owned 5).slot 2).state = .own ∧
    ∃ t, exec (.iterDrop 2) (s9owned 5) = .next t ∧ decide (t.status = .ok) = true :=
  ⟨inv_s9owned, by decide, exists_next _ (by decide)⟩
/-- The ends of the two reserved ranges. -/
theorem witness_RdregReadsTheNumberedRegister :
    (0x08 ≤ (0x08#32).toNat ∧ (0x0F#32).toNat ≤ 0x0F) ∧ 0x18 ≤ (0x18#32).toNat ∧ 0x18 ≤ (0xFFFFFFFF#32).toNat := by decide
theorem witness_RdwordReadsAllocatedWords :
    s9.wcount.toNat ≤ s9.wMax ∧ (1#32).toNat < s9.wcount.toNat ∧ s9.wcount.toNat ≤ (2#32).toNat := by decide
theorem witness_CfgHoldsTheWidthUntilConstructionOrRelease :
    ∃ t, exec (.new 8) s9 = .next t ∧ decide (t.nm1 ≠ s9.nm1 ∨ t.valid ≠ s9.valid) = true := exists_next _ (by decide)
theorem witness_MaxvIsDerivedFromTheWidth :
    s9.valid = true ∧ State.reset.valid = false ∧ (array 32 0 0 0 []).valid = true ∧ (array 32 0 0 0 []).width = 32 := by
  decide
theorem witness_LengthIsWrittenByItsFourCommands :
    (∃ t, exec (.new 8) s9 = .next t ∧ decide (t.status = .ok ∧ t.length ≠ s9.length) = true) ∧
    (∃ t, exec (.push 1) s9 = .next t ∧ decide (t.status = .ok ∧ t.length ≠ s9.length) = true) ∧
    ∃ t, exec (.iterDrop 2) (s9owned 5) = .next t ∧ decide (t.status = .ok ∧ t.length ≠ s9.length) = true :=
  ⟨exists_next _ (by decide), exists_next _ (by decide), exists_next _ (by decide)⟩
/-- A PUSH that grows the reservation: nothing is reserved yet. -/
theorem witness_WordCountsGrowByPushOnly :
    BlockInv (array 9 0 0 0 []) ∧ ∃ t, exec (.push 1) (array 9 0 0 0 []) = .next t ∧
      decide (t.wresv ≠ (array 9 0 0 0 []).wresv) = true := ⟨by decide, exists_next _ (by decide)⟩
theorem witness_SlotsChangeByTheirOwnCommands :
    (∃ t, exec (.iterNext 0) (s9borrowed 2) = .next t ∧ decide (t.status = .ok ∧ t.slot 0 ≠ (s9borrowed 2).slot 0) = true) ∧
    ∃ t, exec (.iterDrop 0) (s9borrowed 2) = .next t ∧ decide (t.status = .ok ∧ (t.slot 0).cur = 0) = true :=
  ⟨exists_next _ (by decide), exists_next _ (by decide)⟩
/-- A SET; a PUSH that does not allocate, and one that does; an ITER_NEXT that yields; a command that errs. -/
theorem witness_CommandsWriteOnlyTheirWriteSet :
    (∃ t, exec (.set 3 170) s9 = .next t ∧ decide (2 ≠ lastWord s9.width 3 ∧ t.word 2 = s9.word 2) = true) ∧
    (∃ t, exec (.push 1) s9 = .next t ∧ decide (s9.needsWord = false ∧ t.length ≠ s9.length) = true) ∧
    (∃ t, exec (.push 1) (array 9 0 0 0 []) = .next t ∧
      decide ((array 9 0 0 0 []).needsWord = true ∧ t.wcount ≠ 0) = true) ∧
    (∃ t, exec (.iterNext 0) (s9borrowed 2) = .next t ∧ decide (t.slot 0 ≠ (s9borrowed 2).slot 0) = true) ∧
    ∃ t, exec (.push 512) s9 = .next t ∧ decide (t.status ≠ .ok) = true :=
  ⟨exists_next _ (by decide), exists_next _ (by decide), exists_next _ (by decide), exists_next _ (by decide),
    exists_next _ (by decide)⟩
/-- Two storages that differ in word 2, which S9 has not allocated. -/
theorem witness_HiddenWordsAreNeverObserved :
    BlockInv (asked (encode (.push 1)) s9) ∧
    DiffersOnlyInHiddenWords (asked (encode (.push 1)) s9)
      { asked (encode (.push 1)) s9 with storage := [(0, 0xF7F7F9FB), (1, 0x00001FFF), (2, 9)] } ∧
    (nextOf (step (asked (encode (.push 1)) s9))).isSome := by
  refine ⟨by decide, ⟨rfl, ?_⟩, by decide⟩
  have : ∀ k : Fin 2, Storage.read [(0, 0xF7F7F9FB), (1, 0x00001FFF), (2, 9)] k.val = s9.word k.val := by decide
  exact fun k hk => this ⟨k, hk⟩
theorem witness_ArrayCommandsNeedAConstructor :
    (BlockInv (s9owned 5) ∧ ((s9owned 5).slot 2).state = .own) ∧ BlockInv State.reset ∧ State.reset.valid = false ∧
    (7#32).toNat ≤ 0x07 ∧ needsArray (.intoIter 3) = true ∧ Instr.iterNext 0 ≠ .new 1 :=
  ⟨⟨inv_s9owned, by decide⟩, inv_reset, by decide⟩
end Sys2Proof.Tests
end

section
/-! PROOF. GROW and its law (00_scope.md R13). -/
namespace Sys2Proof.Machine

/-- GROW's value covers the need, at every W_MAX and for every list of points. -/
theorem le_grow (s : State) (c need : Nat) : need ≤ s.grow c need :=
  Nat.le_max_left _ _

@[simp] theorem grownBy_nil (w c need : Nat) : grownBy w [] c need = defaultGrow w c need := rfl

/-- A listed point decides the value at its own arguments. -/
@[simp] theorem grownBy_singleton (w c need v : Nat) : grownBy w [⟨c, need, v⟩] c need = v := by
  simp [grownBy]

/-- The default of R13 obeys the law of R13. -/
theorem defaultGrow_lawful {w need : Nat} (c : Nat) (h : need ≤ w) :
    need ≤ defaultGrow w c need ∧ defaultGrow w c need ≤ w := by
  unfold defaultGrow; omega

/-- Holding GROW to its law changes no value that obeys the law already. -/
theorem grow_eq_grownBy {s : State} {c need : Nat}
    (hneed : need ≤ grownBy s.wMax s.params.growPoints c need)
    (hmax : grownBy s.wMax s.params.growPoints c need ≤ s.wMax) :
    s.grow c need = grownBy s.wMax s.params.growPoints c need := by
  rw [State.grow, Nat.min_eq_right hmax, Nat.max_eq_right hneed]

/-- With no listed points, GROW is the default of R13. -/
theorem grow_eq_defaultGrow {s : State} {c need : Nat} (hp : s.params.growPoints = []) (h : need ≤ s.wMax) :
    s.grow c need = defaultGrow s.wMax c need := by
  have hg : grownBy s.wMax s.params.growPoints c need = defaultGrow s.wMax c need := by rw [hp, grownBy_nil]
  obtain ⟨hneed, hmax⟩ := defaultGrow_lawful c h
  rw [grow_eq_grownBy (hg ▸ hneed) (hg ▸ hmax), hg]

/-- A single listed point whose value obeys the law is GROW's value at that point. -/
theorem grow_eq_of_singleton {s : State} {c need v : Nat} (hp : s.params.growPoints = [⟨c, need, v⟩])
    (hneed : need ≤ v) (hmax : v ≤ s.wMax) : s.grow c need = v := by
  have hg : grownBy s.wMax s.params.growPoints c need = v := by rw [hp, grownBy_singleton]
  rw [grow_eq_grownBy (hg.symm ▸ hneed) (hg.symm ▸ hmax), hg]

/-- Settles O25: the law from GROW's two bounds, the default from the empty list of points, and each lawful value from the
list of that one point. -/
theorem growObeysItsLaw : Obligations.GrowObeysItsLaw := by
  refine ⟨fun s c need h => ⟨le_grow s c need, grow_le s c need h⟩, fun _ _ _ hp h => grow_eq_defaultGrow hp h, ?_⟩
  intro s c need v hneed hmax
  exact ⟨[⟨c, need, v⟩], grow_eq_of_singleton rfl hneed hmax⟩

end Sys2Proof.Machine
end

section
/-! PROOF. What a command can do, said once for all fifteen: it completes and writes the condition state only, or it completes OK
after one of eleven writes. Every proof about `exec` below is a case analysis on this. -/
namespace Sys2Proof.Machine

/-- The commands that never write anything but the condition state (10_state.md R42). -/
def readsOnly : Instr → Bool
  | .len | .capacity | .get _ | .getUnchecked _ | .rdreg _ | .rdword _ => true
  | .new _ | .withCapacity _ _ | .push _ | .set _ _ | .setUnchecked _ _ | .iter _ | .intoIter _ | .iterNext _
  | .iterDrop _ => false

/-- `Writes s i u`: command `i` passes its checks in state `s`, and its writes besides the condition state leave `u`. -/
inductive Writes (s : State) : Instr → State → Prop
  | new (n : Nat) (idle : AllIdle s) : Writes s (.new n) (s.construct n 0)
  | withCapacity (n : Nat) (a : Word) (idle : AllIdle s) (fits : wordsFor n a.toNat ≤ s.wMax) :
      Writes s (.withCapacity n a) (s.construct n (wordsFor n a.toNat))
  | push (v : Word) (valid : s.valid = true) (idle : AllIdle s) (range : v.toNat ≤ maxOfWidth s.width)
      (noAlloc : s.needsWord = false) (inside : lastWord s.width s.length.toNat < s.wMax) :
      Writes s (.push v) (s.append v)
  | pushAllocating (v : Word) (valid : s.valid = true) (idle : AllIdle s) (range : v.toNat ≤ maxOfWidth s.width)
      (alloc : s.needsWord = true) (room : s.wcount.toNat + 1 ≤ s.wMax)
      (inside : lastWord s.width s.length.toNat < s.wMax) :
      Writes s (.push v) (s.allocate.append v)
  | set (a v : Word) (valid : s.valid = true) (idle : AllIdle s) (bounds : a < s.length)
      (range : v.toNat ≤ maxOfWidth s.width) (inside : lastWord s.width a.toNat < s.wMax) :
      Writes s (.set a v) (s.writeField a.toNat v)
  | setUnchecked (a v : Word) (valid : s.valid = true) (idle : AllIdle s) (range : v.toNat ≤ maxOfWidth s.width)
      (inside : lastWord s.width a.toNat < s.wMax) :
      Writes s (.setUnchecked a v) (s.writeField a.toNat v)
  | iter (k : SlotId) (closed : (s.slot k).state = .idle) (valid : s.valid = true) (notMoved : NotMoved s) :
      Writes s (.iter k) (s.setSlot k ⟨.borrow, 0⟩)
  | intoIter (k : SlotId) (valid : s.valid = true) (idle : AllIdle s) :
      Writes s (.intoIter k) (s.setSlot k ⟨.own, 0⟩)
  | iterNext (k : SlotId) (opened : (s.slot k).state ≠ .idle) (more : (s.slot k).cur < s.length) :
      Writes s (.iterNext k) (s.setSlot k ⟨(s.slot k).state, (s.slot k).cur + 1⟩)
  | dropBorrower (k : SlotId) (borrows : (s.slot k).state = .borrow) :
      Writes s (.iterDrop k) (s.setSlot k Slot.closed)
  | dropOwner (k : SlotId) (owns : (s.slot k).state = .own) :
      Writes s (.iterDrop k) (s.release.setSlot k Slot.closed)

/-- `Completes s i t`: the two ways in which command `i` goes from `s` to a next state `t`. A command that is no mere reader
and writes nothing does not complete OK. -/
inductive Completes (s : State) (i : Instr) : State → Prop
  | unchanged (st : Status) (r : Word) (h : st = .ok → readsOnly i = true) : Completes s i (s.complete st r)
  | written (u : State) (r : Word) (h : Writes s i u) : Completes s i (u.complete .ok r)

/-- A command that errs, or finds nothing, has written the condition state only. -/
theorem Completes.of_ne_ok {s : State} {i : Instr} {st : Status} {r : Word} (h : st ≠ .ok) :
    Completes s i (s.complete st r) :=
  .unchanged st r fun e => absurd e h

theorem readRefusal_ne_ok {s : State} {st : Status} (h : readRefusal s = some st) : st ≠ .ok := by
  rcases (readRefusal_eq_some s st).1 h with ⟨-, rfl⟩ | ⟨-, -, rfl⟩ <;> decide

theorem writeRefusal_ne_ok {s : State} {st : Status} (h : writeRefusal s = some st) : st ≠ .ok := by
  rcases (writeRefusal_eq_some s st).1 h with ⟨-, rfl⟩ | ⟨-, -, rfl⟩ | ⟨-, -, -, rfl⟩ <;> decide

/-- The inversion of `exec`: whatever a command does, it completes in one of the two ways. -/
theorem completes_of_exec {i : Instr} {s t : State} (h : exec i s = .next t) : Completes s i t := by
  cases i with
  | new n =>
    rcases execNew_cases h with ⟨-, rfl⟩ | ⟨hi, rfl⟩
    · exact .of_ne_ok (by decide)
    · exact .written _ _ (.new n hi)
  | withCapacity n a =>
    rcases execWithCapacity_cases h with ⟨-, rfl⟩ | ⟨-, -, rfl⟩ | ⟨hi, hf, rfl⟩
    · exact .of_ne_ok (by decide)
    · exact .of_ne_ok (by decide)
    · exact .written _ _ (.withCapacity n a hi hf)
  | len =>
    rcases execLen_cases h with ⟨st, -, rfl⟩ | ⟨-, rfl⟩ <;> exact .unchanged _ _ fun _ => rfl
  | capacity =>
    rcases execCapacity_cases h with ⟨st, -, rfl⟩ | ⟨-, rfl⟩ <;> exact .unchanged _ _ fun _ => rfl
  | push v =>
    rcases execPush_cases h with ⟨st, hr, rfl⟩ | ⟨-, -, rfl⟩ | ⟨-, -, -, -, rfl⟩ | ⟨hr, hv, hn, hl, rfl⟩ |
      ⟨hr, hv, hn, hw, hl, rfl⟩
    · exact .of_ne_ok (writeRefusal_ne_ok hr)
    · exact .of_ne_ok (by decide)
    · exact .of_ne_ok (by decide)
    · obtain ⟨hvalid, hi⟩ := (writeRefusal_eq_none s).1 hr
      exact .written _ _ (.push v hvalid hi hv hn hl)
    · obtain ⟨hvalid, hi⟩ := (writeRefusal_eq_none s).1 hr
      exact .written _ _ (.pushAllocating v hvalid hi hv hn hw hl)
  | get a =>
    rcases execGet_cases h with ⟨st, -, rfl⟩ | ⟨-, -, rfl⟩ | ⟨-, -, -, rfl⟩ <;> exact .unchanged _ _ fun _ => rfl
  | getUnchecked a =>
    rcases execGetUnchecked_cases h with ⟨st, -, rfl⟩ | ⟨-, -, rfl⟩ | ⟨-, -, -, rfl⟩ <;>
      exact .unchanged _ _ fun _ => rfl
  | set a v =>
    rcases execSet_cases h with ⟨st, hr, rfl⟩ | ⟨-, -, rfl⟩ | ⟨-, -, -, rfl⟩ | ⟨hr, hb, hv, hl, rfl⟩
    · exact .of_ne_ok (writeRefusal_ne_ok hr)
    · exact .of_ne_ok (by decide)
    · exact .of_ne_ok (by decide)
    · obtain ⟨hvalid, hi⟩ := (writeRefusal_eq_none s).1 hr
      exact .written _ _ (.set a v hvalid hi hb hv hl)
  | setUnchecked a v =>
    rcases execSetUnchecked_cases h with ⟨st, hr, rfl⟩ | ⟨-, -, rfl⟩ | ⟨-, -, -, rfl⟩ | ⟨hr, hv, -, hl, rfl⟩
    · exact .of_ne_ok (writeRefusal_ne_ok hr)
    · exact .of_ne_ok (by decide)
    · exact .of_ne_ok (by decide)
    · obtain ⟨hvalid, hi⟩ := (writeRefusal_eq_none s).1 hr
      exact .written _ _ (.setUnchecked a v hvalid hi hv hl)
  | iter k =>
    rcases execIter_cases h with ⟨-, rfl⟩ | ⟨-, st, hr, rfl⟩ | ⟨hk, hr, rfl⟩
    · exact .of_ne_ok (by decide)
    · exact .of_ne_ok (readRefusal_ne_ok hr)
    · obtain ⟨hvalid, hm⟩ := (readRefusal_eq_none s).1 hr
      exact .written _ _ (.iter k hk hvalid hm)
  | intoIter k =>
    rcases execIntoIter_cases h with ⟨-, rfl⟩ | ⟨-, st, hr, rfl⟩ | ⟨-, hr, rfl⟩
    · exact .of_ne_ok (by decide)
    · exact .of_ne_ok (writeRefusal_ne_ok hr)
    · obtain ⟨hvalid, hi⟩ := (writeRefusal_eq_none s).1 hr
      exact .written _ _ (.intoIter k hvalid hi)
  | iterNext k =>
    rcases execIterNext_cases h with ⟨-, rfl⟩ | ⟨-, -, rfl⟩ | ⟨hk, hl, -, rfl⟩
    · exact .of_ne_ok (by decide)
    · exact .of_ne_ok (by decide)
    · exact .written _ _ (.iterNext k hk hl)
  | iterDrop k =>
    rcases execIterDrop_cases h with ⟨-, rfl⟩ | ⟨hk, rfl⟩ | ⟨hk, rfl⟩
    · exact .of_ne_ok (by decide)
    · exact .written _ _ (.dropBorrower k hk)
    · exact .written _ _ (.dropOwner k hk)
  | rdreg a =>
    rcases execRdreg_cases h with ⟨-, rfl⟩ | ⟨r, -, rfl⟩ <;> exact .unchanged _ _ fun _ => rfl
  | rdword a =>
    rcases execRdword_cases h with ⟨-, rfl⟩ | ⟨-, -, rfl⟩ <;> exact .unchanged _ _ fun _ => rfl

/-! ## What no write touches -/

/-- The writes of a command spare the parameters, the host's lists and ERRLOG, which completion alone writes. -/
theorem Writes.spares {s u : State} {i : Instr} (h : Writes s i u) :
    u.params = s.params ∧ u.inputs = s.inputs ∧ u.delivered = s.delivered ∧ u.errlog = s.errlog := by
  cases h <;> simp

/-- Every command ends with a completion, in a state whose ERRLOG is still the old one. -/
theorem exec_ends_in_complete {i : Instr} {s t : State} (h : exec i s = .next t) :
    ∃ (u : State) (st : Status) (r : Word), t = u.complete st r ∧ u.errlog = s.errlog := by
  cases completes_of_exec h with
  | unchanged st r _ => exact ⟨s, st, r, rfl, rfl⟩
  | written u r hw =>
    obtain ⟨-, -, -, he⟩ := hw.spares
    exact ⟨u, .ok, r, rfl, he⟩

/-- The same of a command word, legal or not. -/
theorem runCommand_ends_in_complete {c : Command} {s t : State} (h : runCommand c s = .next t) :
    ∃ (u : State) (st : Status) (r : Word), t = u.complete st r ∧ u.errlog = s.errlog := by
  unfold runCommand at h
  split at h
  · exact exec_ends_in_complete h
  · exact ⟨s, .eIllegal, 0, (raise_eq_next ..).1 h, rfl⟩

/-! ## Words after an allocation, and the slots after reset -/

@[simp] theorem allocate_word (s : State) (k : Nat) :
    s.allocate.word k = if k = s.wcount.toNat then 0 else s.word k :=
  Storage.read_write s.storage s.wcount.toNat k 0

@[simp] theorem resetAt_slot (p : Config.Params) (k : SlotId) : (State.resetAt p).slot k = Slot.closed := by
  fin_cases k <;> rfl

theorem slot_setSlot_self (s : State) (k : SlotId) (v : Slot) : (s.setSlot k v).slot k = v := by
  rw [slot_setSlot, if_pos rfl]

theorem slot_setSlot_of_ne (s : State) {k j : SlotId} (v : Slot) (h : j ≠ k) : (s.setSlot k v).slot j = s.slot j := by
  rw [slot_setSlot, if_neg h]

/-! ## Steps -/

/-- The state after the block took an act that is no reset and delivered the response before it (log entry 6). -/
theorem accept_eq (s : State) (rest : List Input) :
    s.accept rest = { s with inputs := rest, rsp := none, delivered := s.delivered ++ s.rsp.toList } := by
  unfold State.accept State.deliver State.takeInput
  cases s.rsp <;> simp

theorem step_nil {s : State} (h : s.inputs = []) : step s = .next s := by
  simp only [step, h]

theorem step_command {s : State} {c : Command} {rest : List Input} (h : s.inputs = .command c :: rest) :
    step s = runCommand c (s.accept rest) := by
  simp only [step, h]

theorem step_takeResponse {s : State} {rest : List Input} (h : s.inputs = .takeResponse :: rest) :
    step s = .next (s.accept rest) := by
  simp only [step, h]

theorem step_reset {s : State} {contents : List (Nat × Word)} {rest : List Input}
    (h : s.inputs = .reset contents :: rest) : step s = .next ((s.takeInput rest).applyReset contents) := by
  simp only [step, h]

/-- The inversion of `step`: one case per act of the host. -/
theorem step_cases {s t : State} (h : step s = .next t) :
    (s.inputs = [] ∧ t = s) ∨
    (∃ c rest, s.inputs = .command c :: rest ∧ runCommand c (s.accept rest) = .next t) ∨
    (∃ rest, s.inputs = .takeResponse :: rest ∧ t = s.accept rest) ∨
    (∃ contents rest, s.inputs = .reset contents :: rest ∧ t = (s.takeInput rest).applyReset contents) := by
  cases hin : s.inputs with
  | nil =>
    rw [step_nil hin] at h
    exact .inl ⟨rfl, (Host.Outcome.next.inj h).symm⟩
  | cons act rest =>
    cases act with
    | command c => exact .inr (.inl ⟨c, rest, rfl, step_command hin ▸ h⟩)
    | takeResponse =>
      rw [step_takeResponse hin] at h
      exact .inr (.inr (.inl ⟨rest, rfl, (Host.Outcome.next.inj h).symm⟩))
    | reset contents =>
      rw [step_reset hin] at h
      exact .inr (.inr (.inr ⟨contents, rest, rfl, (Host.Outcome.next.inj h).symm⟩))

/-! ## RDREG -/

/-- RDREG of a register's number reads that register (43_observation.md R180). -/
theorem readsValue_rdreg {a : Word} {r : Reg} (s : State) (h : Reg.ofNumber a = some r) :
    ReadsValue (.rdreg a) s (s.readReg r) :=
  readsValue_of (by simp only [exec, execRdreg, h])

end Sys2Proof.Machine
end

section
/-! PROOF. The condition state (10_state.md R33 to R35). -/
namespace Sys2Proof.Machine

/-- What a command word does to ERRLOG: its own status' bit is set, and every other bit stays. -/
theorem errlogWord_runCommand {c : Command} {s t : State} (h : runCommand c s = .next t) (b : Nat) :
    t.errlogWord.getLsbD b = (s.errlogWord.getLsbD b || decide (2 ≤ b ∧ b = t.status.code.toNat)) := by
  obtain ⟨u, st, r, rfl, he⟩ := runCommand_ends_in_complete h
  have hu : u.errlogWord = s.errlogWord := by simp only [State.errlogWord, he]
  rw [errlogWord_complete, hu, complete_status]

theorem errlogWord_eq_zero {s : State} (h : s.errlog = 0) : s.errlogWord = 0 := by
  rw [State.errlogWord, h]; decide

theorem accept_errlogWord (s : State) (rest : List Input) : (s.accept rest).errlogWord = s.errlogWord := by
  rw [accept_eq]; rfl

/-- Settles O15: a completion adds its own bit, an acceptance none, and a reset clears them all. -/
theorem errlogRecordsErrorsUntilReset : Obligations.ErrlogRecordsErrorsUntilReset := by
  refine ⟨fun c s t h b => errlogWord_runCommand h b, ?_, ?_, fun s => readsValue_rdreg (r := .errlog) s rfl, ?_,
    fun p => errlogWord_eq_zero rfl⟩
  · intro s t h hno b hb
    rcases step_cases h with ⟨-, rfl⟩ | ⟨c, rest, -, hc⟩ | ⟨rest, -, rfl⟩ | ⟨contents, rest, hin, -⟩
    · exact hb
    · rw [errlogWord_runCommand hc, accept_errlogWord, hb, Bool.true_or]
    · rw [accept_errlogWord, hb]
    · exact absurd hin (hno contents rest)
  · rintro s b (hb | hb) <;> rw [errlogWord_getLsbD]
    · simp [show ¬ 2 ≤ b by omega]
    · rw [BitVec.getLsbD_of_ge _ _ (by omega), Bool.and_false]
  · intro s t contents rest hin h
    rw [step_reset hin] at h
    rw [← Host.Outcome.next.inj h]
    exact errlogWord_eq_zero rfl

/-- Settles O14: the response is what completion writes to STATUS and RESULT. -/
theorem statusAndResultHoldTheLastResponse : Obligations.StatusAndResultHoldTheLastResponse := by
  refine ⟨?_, fun s => ⟨?_, readsValue_rdreg (r := .result) s rfl⟩, fun p => ⟨rfl, rfl⟩⟩
  · intro c s t h
    obtain ⟨u, st, r, rfl, -⟩ := runCommand_ends_in_complete h
    exact ⟨rfl, fun hst => if_neg hst⟩
  · rw [BitVec.ofNat_toNat]
    exact readsValue_rdreg (r := .status) s rfl

end Sys2Proof.Machine
end

section
/-! PROOF. Which commands write which registers: CFG and MAXV, LENGTH, the slots, and the whole frame of every command
(10_state.md R22 to R24, R38, R42). -/
namespace Sys2Proof.Machine

/-- CFG bit by bit (10_state.md R22). -/
theorem cfgWord_getLsbD (s : State) (b : Nat) :
    s.cfgWord.getLsbD b = if b < 5 then s.nm1.getLsbD b else decide (b = 8) && s.valid := by
  have h : s.cfgWord.getLsbD b = BitVec.getLsbD (w := 23 + 1 + 3 + 5) (0#23 ++ BitVec.ofBool s.valid ++ 0#3 ++ s.nm1) b := rfl
  rw [h]
  simp only [BitVec.getLsbD_append, BitVec.getLsbD_zero, BitVec.getLsbD_ofBool]
  by_cases h5 : b < 5
  · simp only [h5, if_true]
  by_cases h8 : b < 8
  · simp [h5, show b - 5 < 3 by omega, show b ≠ 8 by omega]
  · by_cases e : b = 8
    · subst e; simp
    · simp [h5, e, show ¬ b - 5 < 3 by omega, show ¬ b - 5 - 3 = 0 by omega]

theorem cfgWord_eq_zero {s : State} (hn : s.nm1 = 0) (hv : s.valid = false) : s.cfgWord = 0 := by
  rw [State.cfgWord, hn, hv]; decide

/-- Settles O49: only construction and release write NM1 and VALID. -/
theorem cfgHoldsTheWidthUntilConstructionOrRelease : Obligations.CfgHoldsTheWidthUntilConstructionOrRelease := by
  refine ⟨cfgWord_getLsbD, fun s => ⟨rfl, width_pos s, width_le s⟩, fun s => readsValue_rdreg (r := .cfg) s rfl, ?_,
    fun p => cfgWord_eq_zero rfl rfl⟩
  intro i s t h hne
  cases completes_of_exec h with
  | unchanged st r _ => simp at hne
  | written u r hw =>
    cases hw with
    | new n _ => exact .inl ⟨n, .inl rfl⟩
    | withCapacity n a _ _ => exact .inl ⟨n, .inr ⟨a, rfl⟩⟩
    | dropOwner k owns => exact .inr ⟨k, rfl, owns⟩
    | _ => simp at hne

/-- Settles O50: MAXV is the element mask with an array, and 0 without. -/
theorem maxvIsDerivedFromTheWidth : Obligations.MaxvIsDerivedFromTheWidth := by
  have read (s : State) : ReadsValue (.rdreg 0x04) s s.maxvWord := readsValue_rdreg (r := .maxv) s rfl
  refine ⟨fun s hv => ⟨s.maxWord, ?_, maxWord_toNat s, fun hw => ?_⟩, fun s hv => ?_⟩
  · simpa only [State.maxvWord, hv, if_true] using read s
  · rw [State.maxWord, hw]; rfl
  · simpa only [State.maxvWord, hv, Bool.false_eq_true, if_false] using read s

/-- Settles O51: of the writes of a command, four touch LENGTH. -/
theorem lengthIsWrittenByItsFourCommands : Obligations.LengthIsWrittenByItsFourCommands := by
  refine ⟨?_, ?_, fun p => rfl⟩
  · intro i s t h hok
    cases completes_of_exec h with
    | unchanged st r hr =>
      have hr := hr hok
      refine ⟨?_, ?_, ?_⟩
      · rintro ⟨n, rfl | ⟨a, rfl⟩⟩ <;> cases hr
      · rintro ⟨v, rfl⟩; cases hr
      · rintro ⟨k, rfl, -⟩; cases hr
    | written u r hw =>
      cases hw with
      | dropBorrower k borrows => simp [borrows]
      | _ => simp
  · intro i s t h hne
    cases completes_of_exec h with
    | unchanged st r _ => simp at hne
    | written u r hw =>
      cases hw with
      | new n _ => exact .inl ⟨n, .inl rfl⟩
      | withCapacity n a _ _ => exact .inl ⟨n, .inr ⟨a, rfl⟩⟩
      | push v | pushAllocating v => exact .inr (.inl ⟨v, rfl⟩)
      | dropOwner k owns => exact .inr (.inr ⟨k, rfl, owns⟩)
      | _ => simp at hne

/-- Only a replaced slot reads differently. -/
theorem eq_of_slot_setSlot_ne {s : State} {k j : SlotId} {v : Slot} (h : (s.setSlot j v).slot k ≠ s.slot k) : k = j := by
  by_contra hk
  exact h (slot_setSlot_of_ne s v hk)

/-- Settles O53: a slot is replaced by the four iterator commands of its own, when they go through. -/
theorem slotsChangeByTheirOwnCommands : Obligations.SlotsChangeByTheirOwnCommands := by
  refine ⟨?_, fun s k => ?_, fun p k => by rw [resetAt_slot]; rfl⟩
  · intro i s t k h
    cases completes_of_exec h with
    | unchanged st r hr =>
      refine ⟨?_, ?_, fun hne => absurd rfl hne⟩
      · rintro hok (rfl | rfl | rfl) <;> cases hr hok
      · rintro hok rfl; cases hr hok
    | written u r hw =>
      cases hw with
      | iter j | intoIter j | dropBorrower j | dropOwner j =>
        refine ⟨?_, by simp, fun hne => ?_⟩
        · rintro - h
          obtain rfl : j = k := by simpa using h
          simp [slot_setSlot_self, Slot.closed]
        · obtain rfl := eq_of_slot_setSlot_ne hne
          simp
      | iterNext j =>
        refine ⟨by simp, ?_, fun hne => ?_⟩
        · rintro - h
          obtain rfl : j = k := by simpa using h
          simp [slot_setSlot_self]
        · obtain rfl := eq_of_slot_setSlot_ne hne
          simp
      | _ => simp
  · have hk : Reg.ofNumber (BitVec.ofNat 32 (0x14 + k.val)) = some (.slotCur k) := by fin_cases k <;> rfl
    exact readsValue_rdreg s hk

/-- A PUSH that does not allocate stays below WCOUNT (41_element_access.md R120). -/
theorem lastWord_lt_of_needsWord_false {s : State} (h : s.needsWord = false) :
    lastWord s.width s.length.toNat < s.wcount.toNat := by
  simp only [State.needsWord, Bool.or_eq_false_iff, decide_eq_false_iff_not] at h
  obtain ⟨hs, hw⟩ := h
  simp only [lastWord, hs]
  simpa using hw

/-- PUSH's insertion leaves every word but the element's as it was. -/
theorem append_word_of_ne {s : State} {v : Word} {k : Nat} (h1 : k ≠ wordIndex s.width s.length.toNat)
    (h2 : k ≠ lastWord s.width s.length.toNat) : (s.append v).word k = s.word k :=
  orField_word_of_ne s _ k v h1 h2

/-- Settles O54: a command that wrote the condition state only keeps the block, and the writes of each command are those of its
row. -/
theorem commandsWriteOnlyTheirWriteSet : Obligations.CommandsWriteOnlyTheirWriteSet := by
  intro i s t h
  cases completes_of_exec h with
  | unchanged st r _ =>
    have hb := sameBlock_complete s st r
    have ⟨hr, hw, hs⟩ := hb
    refine ⟨rfl, rfl, rfl, fun _ => hb, ?_⟩
    cases i with
    | new | withCapacity => exact ⟨hw, hs⟩
    | len | capacity | get | getUnchecked | rdreg | rdword => exact hb
    | push => exact ⟨rfl, rfl, hs, fun _ => ⟨rfl, rfl, rfl⟩, fun _ _ _ _ => rfl⟩
    | set | setUnchecked => exact ⟨hr, hs, fun _ _ _ => rfl⟩
    | iter | intoIter => exact ⟨hr, hw, fun _ _ => rfl⟩
    | iterNext => exact ⟨hr, hw, rfl, fun _ _ => rfl⟩
    | iterDrop => exact ⟨fun _ => hr, hw, fun _ _ => rfl⟩
  | written u r hw =>
    obtain ⟨hp, hin, hd, -⟩ := hw.spares
    refine ⟨hp, hin, hd, fun hne => absurd rfl hne, ?_⟩
    cases hw with
    | new | withCapacity => exact ⟨fun _ => rfl, fun _ => rfl⟩
    | push v _ _ _ hn _ =>
      have h1 := lastWord_lt_of_needsWord_false hn
      have h0 := wordIndex_le_lastWord s.width s.length.toNat
      refine ⟨by simp, by simp, fun k => by simp, fun _ => ⟨by simp, by simp, ?_⟩, fun k _ => append_word_of_ne⟩
      exact append_word_of_ne (by omega) (by omega)
    | pushAllocating v _ _ _ ha _ _ =>
      refine ⟨by simp, by simp, fun k => by simp, fun hn => by simp [hn] at ha, fun k hk hk1 hk2 => ?_⟩
      exact (append_word_of_ne (s := s.allocate) hk1 hk2).trans (by rw [allocate_word, if_neg hk])
    | set a v | setUnchecked a v =>
      exact ⟨⟨by simp, by simp, by simp, by simp, by simp⟩, fun k => by simp, fun k => writeField_word_of_ne s _ k v⟩
    | iter k | intoIter k =>
      exact ⟨⟨rfl, rfl, rfl, rfl, rfl⟩, fun _ => rfl, fun j => slot_setSlot_of_ne s _⟩
    | iterNext k =>
      refine ⟨⟨rfl, rfl, rfl, rfl, rfl⟩, fun _ => rfl, ?_, fun j => slot_setSlot_of_ne s _⟩
      rw [complete_slot, slot_setSlot_self]
    | dropBorrower k =>
      exact ⟨fun _ => ⟨rfl, rfl, rfl, rfl, rfl⟩, fun _ => rfl, fun j => slot_setSlot_of_ne s _⟩
    | dropOwner k owns =>
      exact ⟨fun hne => absurd owns hne, fun _ => rfl, fun j => slot_setSlot_of_ne s.release _⟩

end Sys2Proof.Machine
end

section
/-! PROOF. The block invariant (10_state.md R28 to R32, R39): each operation on the state keeps the parts it touches, so every
write of a command keeps it, and so does every step. -/
namespace Sys2Proof.Machine

/-- The part of the invariant that does not speak of the condition state. -/
abbrev RegsInv (s : State) : Prop := ArrayInv s ∧ NoArrayInv s ∧ SlotInv s ∧ StorageInv s

/-! ## The condition state -/

/-- Completion establishes the relations of STATUS, RESULT, ERRLOG and the response, whatever they were. -/
theorem conditionInv_complete (s : State) (st : Status) (r : Word) : ConditionInv (s.complete st r) := by
  refine ⟨fun hne => if_neg hne, fun hcode => ?_, .inr rfl⟩
  rw [complete_status] at hcode ⊢
  simp [errlogWord_complete, hcode]

theorem blockInv_complete {s : State} (h : RegsInv s) (st : Status) (r : Word) : BlockInv (s.complete st r) := by
  obtain ⟨ha, hn, hs, hst⟩ := h
  exact ⟨ha, hn, hs, hst, conditionInv_complete s st r⟩

theorem BlockInv.regs {s : State} (h : BlockInv s) : RegsInv s := by
  obtain ⟨ha, hn, hs, hst, -⟩ := h
  exact ⟨ha, hn, hs, hst⟩

/-! ## The array's counts -/

theorem noArrayInv_of_valid {s : State} (hv : s.valid = true) : NoArrayInv s := fun h => by simp [hv] at h

/-- Only an array can be iterated (R32). -/
theorem valid_of_open {s : State} (h : NoArrayInv s) {k : SlotId} (hk : (s.slot k).state ≠ .idle) : s.valid = true := by
  by_contra hv
  obtain ⟨-, -, -, -, hidle⟩ := h (by simpa using hv)
  exact hk (hidle k)

theorem arrayInv_construct {s : State} {n resv : Nat} (h : resv ≤ s.wMax) : ArrayInv (s.construct n resv) := by
  intro _
  have := wMax_lt s
  have hr : (BitVec.ofNat 32 resv).toNat = resv := by rw [BitVec.toNat_ofNat]; omega
  refine ⟨?_, ?_, ?_⟩ <;> simp only [construct_wcount, construct_length, construct_wresv, construct_wMax, hr]
  · simp
  · exact Nat.zero_le _
  · exact h

/-- PUSH allocates exactly when the allocated words do not hold one more element. -/
theorem needsWord_iff {s : State} (h : s.wcount.toNat = (s.length.toNat * s.width + 31) / 32) :
    s.needsWord = true ↔ 32 * s.wcount.toNat < s.length.toNat * s.width + s.width := by
  have h1 := width_pos s
  have h2 := width_le s
  simp only [State.needsWord, spans, Bool.or_eq_true, decide_eq_true_eq]
  simp only [available, bitOffset, wordIndex, bitPos]
  omega

theorem toNat_add_one {w : Word} (h : w.toNat + 1 < 2 ^ 32) : (w + 1).toNat = w.toNat + 1 :=
  BitVec.toNat_add_of_lt h

/-- LENGTH does not overflow while its elements fit in the storage. -/
theorem length_add_one_toNat {s : State} {words : Nat} (hfit : s.length.toNat * s.width + s.width ≤ 32 * words)
    (hw : words ≤ s.wMax) : (s.length + 1).toNat = s.length.toNat + 1 := by
  have := Nat.le_mul_of_pos_right s.length.toNat (width_pos s)
  have := width_pos s
  have := wMax_lt s
  exact toNat_add_one (by omega)

/-- A PUSH that does not allocate fits below WCOUNT. -/
theorem append_fits {s : State} (h : s.wcount.toNat = (s.length.toNat * s.width + 31) / 32) (hn : s.needsWord = false) :
    s.length.toNat * s.width + s.width ≤ 32 * s.wcount.toNat := by
  have hfull := (needsWord_iff h).not.1 (by simp [hn])
  omega

/-- LENGTH counts an element appended without an allocation. -/
theorem append_length_toNat {s : State} (h : ArrayInv s) (hv : s.valid = true) (hn : s.needsWord = false) :
    (s.length + 1).toNat = s.length.toNat + 1 := by
  obtain ⟨hc, hr, hm⟩ := h hv
  exact length_add_one_toNat (append_fits hc hn) (hr.trans hm)

/-- LENGTH counts an element appended to an allocated word. -/
theorem allocate_append_length_toNat {s : State} (h : ArrayInv s) (hv : s.valid = true)
    (hroom : s.wcount.toNat + 1 ≤ s.wMax) : (s.length + 1).toNat = s.length.toNat + 1 := by
  obtain ⟨hc, -, -⟩ := h hv
  have hwidth := width_le s
  exact length_add_one_toNat (words := s.wcount.toNat + 1) (by omega) hroom

theorem arrayInv_append {s : State} (v : Word) (h : ArrayInv s) (hv : s.valid = true) (hn : s.needsWord = false) :
    ArrayInv (s.append v) := by
  intro _
  obtain ⟨hc, hr, hm⟩ := h hv
  have hfit := append_fits hc hn
  refine ⟨?_, by simpa using hr, by simpa using hm⟩
  rw [append_wcount, append_length, append_width, append_length_toNat h hv hn, Nat.succ_mul]
  omega

/-- WCOUNT counts an allocated word. -/
theorem allocate_wcount_toNat {s : State} (h : s.wcount.toNat + 1 ≤ s.wMax) :
    (s.wcount + 1).toNat = s.wcount.toNat + 1 :=
  toNat_add_one (by have := wMax_lt s; omega)

/-- The reservation after an allocation: GROW's value when it was full, and as before otherwise (R13). -/
theorem allocate_wresv_toNat {s : State} (h : s.wcount.toNat + 1 ≤ s.wMax) :
    s.allocate.wresv.toNat = if s.wresv.toNat < s.wcount.toNat + 1
      then s.grow s.wresv.toNat (s.wcount.toNat + 1) else s.wresv.toNat := by
  have := grow_le s s.wresv.toNat (s.wcount.toNat + 1) h
  have := wMax_lt s
  rw [allocate_wresv]
  split
  · rw [BitVec.toNat_ofNat]; omega
  · rfl

theorem arrayInv_allocate_append {s : State} (v : Word) (h : ArrayInv s) (hv : s.valid = true)
    (hn : s.needsWord = true) (hroom : s.wcount.toNat + 1 ≤ s.wMax) : ArrayInv (s.allocate.append v) := by
  intro _
  obtain ⟨hc, hr, hm⟩ := h hv
  have hfull := (needsWord_iff hc).1 hn
  have hwidth := width_le s
  have hwc := allocate_wcount_toNat hroom
  have hl := allocate_append_length_toNat h hv hroom
  have hneed := le_grow s s.wresv.toNat (s.wcount.toNat + 1)
  have hmax := grow_le s s.wresv.toNat (s.wcount.toNat + 1) hroom
  refine ⟨?_, ?_, ?_⟩
  · rw [append_wcount, allocate_wcount, append_length, allocate_length, append_width, allocate_width, hwc, hl,
      Nat.succ_mul]
    omega
  · rw [append_wcount, allocate_wcount, append_wresv, hwc, allocate_wresv_toNat hroom]
    split <;> omega
  · rw [append_wresv, allocate_wresv_toNat hroom, append_wMax, allocate_wMax]
    split <;> omega

/-! ## The slots -/

/-- Replacing a slot keeps R38 and R39 when the new owner is alone, no owner stands beside the new iterator, and the new
cursor is in range. -/
theorem slotInv_setSlot {s : State} {k : SlotId} {v : Slot} (h : SlotInv s)
    (alone : v.state = .own → ∀ j, j ≠ k → (s.slot j).state = .idle)
    (unowned : v.state ≠ .idle → ∀ j, j ≠ k → (s.slot j).state ≠ .own)
    (inRange : v.state ≠ .idle → v.cur ≤ s.length) (atZero : v.state = .idle → v.cur = 0) :
    SlotInv (s.setSlot k v) := by
  obtain ⟨howner, hcur, hzero⟩ := h
  refine ⟨fun i j hi hj => ?_, fun j hj => ?_, fun j hj => ?_⟩
  · rw [slot_setSlot] at hi hj
    by_cases hik : i = k <;> by_cases hjk : j = k
    · exact hik.trans hjk.symm
    · rw [if_pos hik] at hi; rw [if_neg hjk] at hj
      exact absurd (alone hi j hjk) hj
    · rw [if_neg hik] at hi; rw [if_pos hjk] at hj
      exact absurd hi (unowned hj i hik)
    · rw [if_neg hik] at hi; rw [if_neg hjk] at hj
      exact howner i j hi hj
  · rw [slot_setSlot] at hj ⊢
    split at hj
    · next e => rw [if_pos e]; exact inRange hj
    · next e => rw [if_neg e]; exact hcur j hj
  · rw [slot_setSlot] at hj ⊢
    split at hj
    · next e => rw [if_pos e]; exact atZero hj
    · next e => rw [if_neg e]; exact hzero j hj

/-- Slots that are all closed meet R38 and R39, at every LENGTH. -/
theorem slotInv_of_closed {s : State} (h : ∀ k, s.slot k = Slot.closed) : SlotInv s := by
  simp [SlotInv, h, Slot.closed]

/-- With every slot idle, every slot is closed. -/
theorem slot_eq_closed {s : State} (h : SlotInv s) {k : SlotId} (hk : (s.slot k).state = .idle) :
    s.slot k = Slot.closed := by
  obtain ⟨-, -, hzero⟩ := h
  cases hs : s.slot k with
  | mk state cur =>
    have := hzero k hk
    simp_all [Slot.closed]

/-- Beside an owner every slot is closed (R39). -/
theorem slot_closed_of_owner {s : State} (h : SlotInv s) {j k : SlotId} (hk : (s.slot k).state = .own) (hne : j ≠ k) :
    s.slot j = Slot.closed := by
  refine slot_eq_closed h ?_
  by_contra hj
  exact hne (h.1 k j hk hj).symm

/-- Dropping the owner leaves every slot closed. -/
theorem dropOwner_slot {s : State} (h : SlotInv s) {k : SlotId} (hk : (s.slot k).state = .own) (j : SlotId) :
    (s.release.setSlot k Slot.closed).slot j = Slot.closed := by
  by_cases hj : j = k
  · rw [hj, slot_setSlot_self]
  · rw [slot_setSlot_of_ne _ _ hj, release_slot, slot_closed_of_owner h hk hj]

/-! ## The writes of a command -/

/-- What changes the storage alone keeps the registers' part of the invariant. -/
theorem regsInv_writeField {s : State} (h : RegsInv s) {i : Nat} (v : Word) (hi : lastWord s.width i < s.wMax) :
    RegsInv (s.writeField i v) := by
  obtain ⟨ha, hn, hs, hst⟩ := h
  have hst' := storageInv_writeField s i v hi hst
  rw [writeField_eq] at hst' ⊢
  exact ⟨ha, hn, hs, hst'⟩

theorem slotInv_append {s : State} (v : Word) (h : AllIdle s) (hs : SlotInv s) : SlotInv (s.append v) :=
  slotInv_of_closed fun k => by rw [append_slot, slot_eq_closed hs (h k)]

theorem storageInv_append {s : State} (v : Word) (hi : lastWord s.width s.length.toNat < s.wMax) (h : StorageInv s) :
    StorageInv (s.append v) :=
  storageInv_orField s s.length.toNat v hi h

theorem storageInv_allocate {s : State} (hi : s.wcount.toNat < s.wMax) (h : StorageInv s) : StorageInv s.allocate :=
  storageInv_writeWord s s.wcount.toNat 0 hi h

/-- Every write of a command keeps the invariant. -/
theorem Writes.keeps_regsInv {s u : State} {i : Instr} (hw : Writes s i u) (h : RegsInv s) : RegsInv u := by
  obtain ⟨ha, hn, hs, hst⟩ := h
  cases hw with
  | new n idle =>
    exact ⟨arrayInv_construct (Nat.zero_le _), noArrayInv_of_valid rfl,
      slotInv_of_closed fun k => slot_eq_closed hs (idle k), hst⟩
  | withCapacity n a idle fits =>
    exact ⟨arrayInv_construct fits, noArrayInv_of_valid rfl, slotInv_of_closed fun k => slot_eq_closed hs (idle k), hst⟩
  | push v valid idle _ noAlloc inside =>
    exact ⟨arrayInv_append v ha valid noAlloc, noArrayInv_of_valid (by simpa using valid), slotInv_append v idle hs,
      storageInv_append v inside hst⟩
  | pushAllocating v valid idle _ alloc room inside =>
    exact ⟨arrayInv_allocate_append v ha valid alloc room, noArrayInv_of_valid (by simpa using valid),
      slotInv_append v idle hs, storageInv_append v inside (storageInv_allocate room hst)⟩
  | set a v _ _ _ _ inside | setUnchecked a v _ _ _ inside => exact regsInv_writeField ⟨ha, hn, hs, hst⟩ v inside
  | iter k closed valid notMoved =>
    exact ⟨ha, noArrayInv_of_valid valid,
      slotInv_setSlot hs nofun (fun _ j _ => notMoved j) (fun _ => Nat.zero_le _) nofun, hst⟩
  | intoIter k valid idle =>
    exact ⟨ha, noArrayInv_of_valid valid,
      slotInv_setSlot hs (fun _ j _ => idle j) (fun _ j _ => by simp [idle j]) (fun _ => Nat.zero_le _) nofun, hst⟩
  | iterNext k opened more =>
    have valid := valid_of_open hn opened
    refine ⟨ha, noArrayInv_of_valid valid, slotInv_setSlot hs ?_ ?_ (fun _ => ?_) ?_, hst⟩
    · exact fun hown j hj => by rw [slot_closed_of_owner hs hown hj]; rfl
    · exact fun _ j hj hown => hj (hs.1 j k hown opened)
    · show (s.slot k).cur + 1 ≤ s.length
      bv_omega
    · exact fun hidle => absurd hidle opened
  | dropBorrower k borrows =>
    have valid := valid_of_open hn (k := k) (by simp [borrows])
    exact ⟨ha, noArrayInv_of_valid valid,
      slotInv_setSlot hs nofun (fun hne => absurd rfl hne) (fun hne => absurd rfl hne) (fun _ => rfl), hst⟩
  | dropOwner k owns =>
    have hclosed := dropOwner_slot hs owns
    exact ⟨nofun, fun _ => ⟨rfl, rfl, rfl, rfl, fun j => by rw [hclosed j]; rfl⟩, slotInv_of_closed hclosed, hst⟩

/-- Every command keeps the invariant, whatever the condition state was before it. -/
theorem exec_keeps_blockInv {i : Instr} {s t : State} (hs : RegsInv s) (h : exec i s = .next t) : BlockInv t := by
  cases completes_of_exec h with
  | unchanged st r _ => exact blockInv_complete hs st r
  | written u r hw => exact blockInv_complete (hw.keeps_regsInv hs) .ok r

theorem runCommand_keeps_blockInv {c : Command} {s t : State} (hs : RegsInv s) (h : runCommand c s = .next t) :
    BlockInv t := by
  unfold runCommand at h
  split at h
  · exact exec_keeps_blockInv hs h
  · rw [(raise_eq_next ..).1 h]
    exact blockInv_complete hs _ _

/-! ## Reset and the other acts of the host -/

theorem blockInv_resetAt (p : Config.Params) : BlockInv (State.resetAt p) := by
  refine ⟨nofun, fun _ => ⟨rfl, rfl, rfl, rfl, fun k => by rw [resetAt_slot]; rfl⟩, slotInv_of_closed (resetAt_slot p),
    ⟨⟨List.Pairwise.nil, ?_⟩, ?_⟩, fun _ => rfl, ?_, .inl rfl⟩
  · exact fun c hc => absurd hc List.not_mem_nil
  · exact fun c hc => absurd hc List.not_mem_nil
  · exact fun hcode => absurd hcode (show ¬ 2 ≤ Status.ok.code.toNat by decide)

/-- A reset state is the state after power-up but for the storage and what is the host's. -/
theorem blockInv_applyReset (s : State) (contents : List (Nat × Word)) : BlockInv (s.applyReset contents) := by
  obtain ⟨ha, hn, hs, -, hc⟩ := blockInv_resetAt s.params
  exact ⟨ha, hn, hs, storageInv_applyReset s contents, hc⟩

theorem blockInv_accept {s : State} (h : BlockInv s) (rest : List Input) : BlockInv (s.accept rest) := by
  obtain ⟨ha, hn, hs, hst, hres, hlog, -⟩ := h
  rw [accept_eq]
  exact ⟨ha, hn, hs, hst, hres, hlog, .inl rfl⟩

theorem step_keeps_blockInv {s t : State} (hs : BlockInv s) (h : step s = .next t) : BlockInv t := by
  rcases step_cases h with ⟨-, rfl⟩ | ⟨c, rest, -, hc⟩ | ⟨rest, -, rfl⟩ | ⟨contents, rest, -, rfl⟩
  · exact hs
  · exact runCommand_keeps_blockInv (blockInv_accept hs rest).regs hc
  · exact blockInv_accept hs rest
  · exact blockInv_applyReset _ contents

/-- Settles O3: by the inversion of a step and the invariant's preservation by each of its cases; R28's inequality is R29's
ceiling. -/
theorem stepKeepsTheInvariant : Obligations.StepKeepsTheInvariant := by
  refine ⟨fun s t hs h => step_keeps_blockInv hs h, fun s hs hv => ?_⟩
  obtain ⟨ha, -⟩ := hs
  obtain ⟨hc, -⟩ := ha hv
  omega

/-- Settles O2: at reset there is no array, and so no allocated word. -/
theorem resetMeetsTheInvariant : Obligations.ResetMeetsTheInvariant :=
  fun p => ⟨blockInv_resetAt p, fun _ _ hb => absurd hb (Nat.not_lt_zero _)⟩

/-! ## What follows for the counts and for open iterators -/

/-- Settles O52: PUSH alone writes WCOUNT and WRESV of a living array, and it writes them when it allocates. -/
theorem wordCountsGrowByPushOnly : Obligations.WordCountsGrowByPushOnly := by
  intro i s t hs h hnew hdrop
  cases completes_of_exec h with
  | unchanged st r _ => simp
  | written u r hw =>
    cases hw with
    | new n => exact absurd rfl (hnew n).1
    | withCapacity n a => exact absurd rfl ((hnew n).2 a)
    | dropOwner k owns => exact absurd owns (hdrop k rfl)
    | pushAllocating v valid _ _ _ room _ =>
      obtain ⟨ha, -⟩ := hs
      obtain ⟨-, hr, -⟩ := ha valid
      have hwc := allocate_wcount_toNat room
      rw [complete_wcount, complete_wresv, append_wcount, append_wresv, allocate_wcount, hwc]
      refine ⟨by omega, fun hno => absurd rfl (hno v), fun _ => ⟨le_rfl, fun hne => ?_⟩⟩
      have hfull : s.wresv.toNat < s.wcount.toNat + 1 := by
        by_contra hroom
        exact hne (by rw [allocate_wresv, if_neg hroom])
      exact ⟨BitVec.eq_of_toNat_eq (by omega), rfl, by rw [allocate_wresv_toNat room, if_pos hfull]⟩
    | _ => simp

/-- Elements are read from the width and the words. -/
@[simp] theorem complete_extract (s : State) (st : Status) (r : Word) (e : Nat) :
    (s.complete st r).extract e = s.extract e := rfl

@[simp] theorem setSlot_extract (s : State) (k : SlotId) (v : Slot) (e : Nat) : (s.setSlot k v).extract e = s.extract e :=
  rfl

/-- Settles O44: while a slot is open the writes of the array are refused, and the other slots' iterators do not touch it. -/
theorem openIteratorsFixTheArray : Obligations.OpenIteratorsFixTheArray := by
  intro i s t k hs hk hdrop h
  obtain ⟨-, -, ⟨howner, -⟩, -⟩ := hs
  cases completes_of_exec h with
  | unchanged st r _ => exact ⟨rfl, rfl, rfl, fun _ _ => rfl, fun _ => rfl⟩
  | written u r hw =>
    cases hw with
    | new _ idle | withCapacity _ _ idle | push _ _ idle | pushAllocating _ _ idle | set _ _ _ idle
    | setUnchecked _ _ _ idle | intoIter _ _ idle => exact absurd (idle k) hk
    | iter j closed =>
      have hj : k ≠ j := fun e => hk (e ▸ closed)
      have hslot := slot_setSlot_of_ne s ⟨.borrow, 0⟩ hj
      exact ⟨rfl, rfl, congrArg Slot.state hslot, fun _ _ => rfl, fun _ => hslot⟩
    | iterNext j =>
      refine ⟨rfl, rfl, ?_, fun _ _ => rfl, fun hne => ?_⟩
      · rw [complete_slot, slot_setSlot]
        split
        · next e => rw [e]
        · rfl
      · exact slot_setSlot_of_ne s _ fun e => hne (by rw [e])
    | dropBorrower j =>
      have hj : k ≠ j := fun e => hdrop (by rw [e])
      have hslot := slot_setSlot_of_ne s Slot.closed hj
      exact ⟨rfl, rfl, congrArg Slot.state hslot, fun _ _ => rfl, fun _ => hslot⟩
    | dropOwner j owns => exact absurd (by rw [howner j k owns hk]) hdrop

end Sys2Proof.Machine
end

section
/-! PROOF. What the insertions do to each storage bit (20_memory.md R52), and the slack bits (10_state.md R31). -/
namespace Sys2Proof.Machine

/-! ## The bits of a shifted value, at their places in the storage -/

/-- In the element's first word, a value shifted by the element's offset. -/
theorem getLsbD_shiftLeft_bitOffset {n i b : Nat} (w : Word) (h : b / 32 = wordIndex n i) :
    (w <<< bitOffset n i).getLsbD (b % 32) = (decide (i * n ≤ b) && w.getLsbD (b - i * n)) := by
  simp only [wordIndex, bitPos] at h
  simp only [BitVec.getLsbD_shiftLeft, bitOffset, bitPos, Nat.mod_lt b (by decide : 32 > 0), decide_true, Bool.true_and]
  by_cases hb : i * n ≤ b
  · rw [show b % 32 - i * n % 32 = b - i * n by omega]
    simp [hb, show i * n % 32 ≤ b % 32 by omega]
  · simp [hb, show b % 32 < i * n % 32 by omega]

/-- In the element's second word, the part of a value that does not fit in the first. -/
theorem getLsbD_shiftRight_available {n i b : Nat} (w : Word) (h : b / 32 = wordIndex n i + 1) :
    (w >>> available n i).getLsbD (b % 32) = (decide (i * n ≤ b) && w.getLsbD (b - i * n)) := by
  simp only [wordIndex, bitPos] at h
  simp only [BitVec.getLsbD_ushiftRight, available, bitOffset, bitPos]
  rw [show 32 - i * n % 32 + b % 32 = b - i * n by omega, decide_eq_true (by omega : i * n ≤ b), Bool.true_and]

/-- A storage bit outside the element's words is none of the element's. -/
theorem not_element_bit {n i b : Nat} (hn : n ≤ 32) (h1 : b / 32 ≠ wordIndex n i)
    (h2 : spans n i = true → b / 32 ≠ wordIndex n i + 1) : ¬ (i * n ≤ b ∧ b < i * n + n) := by
  simp only [spans, decide_eq_true_eq] at h2
  simp only [available, bitOffset, wordIndex, bitPos] at h1 h2
  omega

/-- A value in range has no bit above the element. -/
theorem value_bit {s : State} {v : Word} (hv : v.toNat ≤ maxOfWidth s.width) (p b : Nat) :
    (decide (p ≤ b) && v.getLsbD (b - p)) = (decide (p ≤ b ∧ b < p + s.width) && v.getLsbD (b - p)) := by
  by_cases hb : p ≤ b
  · by_cases hlt : b < p + s.width
    · simp [hb, hlt]
    · simp [hb, hlt, getLsbD_of_le_max s v hv (b - p) (by omega)]
  · simp [hb]

/-- The bits that the element mask covers. -/
theorem mask_bit (s : State) (p b : Nat) :
    (decide (p ≤ b) && s.maxWord.getLsbD (b - p)) = decide (p ≤ b ∧ b < p + s.width) := by
  rw [maxWord_getLsbD, Bool.and_eq_decide]
  simp only [decide_eq_true_eq, decide_eq_decide]
  omega

/-! ## Insertion, bit by bit -/

/-- `or_field` ORs the value into the element's bits (41_element_access.md R122). -/
theorem storageBit_orField {s : State} {v : Word} (hv : v.toNat ≤ maxOfWidth s.width) (i b : Nat) :
    (s.orField i v).storageBit b = (s.storageBit b ||
      (decide (i * s.width ≤ b ∧ b < i * s.width + s.width) && v.getLsbD (b - i * s.width))) := by
  have first (h : b / 32 = wordIndex s.width i) :
      (s.word (wordIndex s.width i) ||| v <<< bitOffset s.width i).getLsbD (b % 32) = (s.storageBit b ||
        (decide (i * s.width ≤ b ∧ b < i * s.width + s.width) && v.getLsbD (b - i * s.width))) := by
    rw [BitVec.getLsbD_or, getLsbD_shiftLeft_bitOffset v h, value_bit hv, ← h]; rfl
  rcases orField_cases s i v with ⟨hs, e⟩ | ⟨hs, e⟩
  · rw [e, storageBit_writeWord]
    split
    · next h => exact first h
    · next h => simp [not_element_bit (width_le s) h (by simp [hs])]
  · rw [e, storageBit_writeWord, storageBit_writeWord]
    split
    · next h => rw [BitVec.getLsbD_or, getLsbD_shiftRight_available v h, value_bit hv, ← h]; rfl
    · next h2 =>
      split
      · next h => exact first h
      · next h => simp [not_element_bit (width_le s) h fun _ => h2]

/-- One word of `write_field`, at a bit where the mask and the value stand at their places: the element's bits are replaced. -/
theorem replaced_bit {s : State} {v : Word} (hv : v.toNat ≤ maxOfWidth s.width) {p b : Nat} {old mask value : Word}
    (hold : old.getLsbD (b % 32) = s.storageBit b)
    (hmask : mask.getLsbD (b % 32) = (decide (p ≤ b) && s.maxWord.getLsbD (b - p)))
    (hvalue : value.getLsbD (b % 32) = (decide (p ≤ b) && v.getLsbD (b - p))) :
    ((old &&& ~~~mask) ||| value).getLsbD (b % 32) =
      if p ≤ b ∧ b < p + s.width then v.getLsbD (b - p) else s.storageBit b := by
  rw [BitVec.getLsbD_or, BitVec.getLsbD_and, BitVec.getLsbD_not, hold, hmask, hvalue, mask_bit, value_bit hv]
  by_cases hin : p ≤ b ∧ b < p + s.width <;> simp [hin, Nat.mod_lt]

/-- `write_field` replaces the element's bits (41_element_access.md R123). -/
theorem storageBit_writeField {s : State} {v : Word} (hv : v.toNat ≤ maxOfWidth s.width) (i b : Nat) :
    (s.writeField i v).storageBit b =
      if i * s.width ≤ b ∧ b < i * s.width + s.width then v.getLsbD (b - i * s.width) else s.storageBit b := by
  have first (h : b / 32 = wordIndex s.width i) :=
    replaced_bit hv (old := s.word (wordIndex s.width i)) (by rw [← h]; rfl)
      (getLsbD_shiftLeft_bitOffset s.maxWord h) (getLsbD_shiftLeft_bitOffset v h)
  rcases writeField_cases s i v with ⟨hs, e⟩ | ⟨hs, e⟩
  · rw [e, storageBit_writeWord]
    split
    · next h => exact first h
    · next h => rw [if_neg (not_element_bit (width_le s) h (by simp [hs]))]
  · rw [e, storageBit_writeWord, storageBit_writeWord]
    split
    · next h =>
      exact replaced_bit hv (by rw [← h]; rfl) (getLsbD_shiftRight_available s.maxWord h)
        (getLsbD_shiftRight_available v h)
    · next h2 =>
      split
      · next h => exact first h
      · next h => rw [if_neg (not_element_bit (width_le s) h fun _ => h2)]

/-- The bits of an element below `n` end where element `n` begins. -/
theorem element_end_le {i n : Nat} (w : Nat) (h : i < n) : i * w + w ≤ n * w := by
  rw [← Nat.succ_mul]; exact Nat.mul_le_mul_right w h

/-! ## Slack -/

/-- Without an allocated word there is no slack. -/
theorem slackZero_of_wcount_eq_zero {s : State} (h : s.wcount = 0) : SlackZero s := by
  intro b _ hb
  simp [h] at hb

/-- An element in place of slack leaves the slack above it as it was. -/
theorem slackZero_append {s : State} {v : Word} (h : SlackZero s) (hv : v.toNat ≤ maxOfWidth s.width)
    (hl : (s.length + 1).toNat = s.length.toNat + 1) : SlackZero (s.append v) := by
  intro b hlow hhigh
  rw [append_length, append_width, hl, Nat.succ_mul] at hlow
  rw [append_wcount] at hhigh
  have hbit : (s.append v).storageBit b = (s.orField s.length.toNat v).storageBit b := rfl
  rw [hbit, storageBit_orField hv, h b (by omega) hhigh, decide_eq_false (by omega)]
  rfl

/-- The word an allocation adds is zero. -/
theorem slackZero_allocate {s : State} (h : SlackZero s) (hroom : s.wcount.toNat + 1 ≤ s.wMax) :
    SlackZero s.allocate := by
  intro b hlow hhigh
  rw [allocate_wcount, allocate_wcount_toNat hroom] at hhigh
  rw [State.storageBit, allocate_word]
  split
  · simp
  · exact h b hlow (by omega)

/-- An element below LENGTH has no slack bit. -/
theorem slackZero_writeField {s : State} {v : Word} {i : Nat} (h : SlackZero s) (hv : v.toNat ≤ maxOfWidth s.width)
    (hi : i < s.length.toNat) : SlackZero (s.writeField i v) := by
  intro b hlow hhigh
  rw [writeField_length, writeField_width] at hlow
  rw [writeField_wcount] at hhigh
  have := element_end_le s.width hi
  rw [storageBit_writeField hv, if_neg (by omega)]
  exact h b hlow hhigh

/-- Settles O39: no insertion below LENGTH reaches the slack, and PUSH only shrinks it or adds a zero word. -/
theorem slackBitsStayZero : Obligations.SlackBitsStayZero := by
  intro i s t hs hz hset h
  obtain ⟨ha, -⟩ := hs
  cases completes_of_exec h with
  | unchanged st r _ => exact hz
  | written u r hw =>
    suffices hu : SlackZero u from hu
    cases hw with
    | new | withCapacity | dropOwner => exact slackZero_of_wcount_eq_zero rfl
    | iter | intoIter | iterNext | dropBorrower => exact hz
    | push v valid _ range noAlloc => exact slackZero_append hz range (append_length_toNat ha valid noAlloc)
    | pushAllocating v valid _ range _ room =>
      have hl := allocate_append_length_toNat ha valid room
      exact slackZero_append (slackZero_allocate hz room) range hl
    | set a v _ _ bounds range => exact slackZero_writeField hz range bounds
    | setUnchecked a v _ _ range => exact slackZero_writeField hz range (hset a v rfl)

end Sys2Proof.Machine
end

section
/-! PROOF. Words at or above WCOUNT are never observed (10_state.md R27): every operation takes two states that differ in such
words only to two such states, and every command reads allocated words only. -/
namespace Sys2Proof.Machine

/-- The state with other storage contents. -/
def State.withStorage (s : State) (m : Storage) : State := { s with storage := m }

/-- Differing in hidden words only, as a storage put in place of another one. -/
theorem differsOnlyInHiddenWords_iff (s u : State) :
    DiffersOnlyInHiddenWords s u ↔ ∃ m : Storage, u = s.withStorage m ∧ ∀ k, k < s.wcount.toNat → m.read k = s.word k :=
  ⟨fun ⟨hu, hw⟩ => ⟨u.storage, hu, hw⟩, by rintro ⟨m, rfl, hw⟩; exact ⟨rfl, hw⟩⟩

theorem DiffersOnlyInHiddenWords.refl (s : State) : DiffersOnlyInHiddenWords s s := ⟨rfl, fun _ _ => rfl⟩

/-! ## The operations keep the relation -/

section
variable {s u : State} (h : DiffersOnlyInHiddenWords s u)
include h

theorem DiffersOnlyInHiddenWords.length_eq : u.length = s.length := by rw [h.1]
theorem DiffersOnlyInHiddenWords.wcount_eq : u.wcount = s.wcount := by rw [h.1]
theorem DiffersOnlyInHiddenWords.width_eq : u.width = s.width := by rw [h.1]; rfl
theorem DiffersOnlyInHiddenWords.maxWord_eq : u.maxWord = s.maxWord := by rw [State.maxWord, h.width_eq]; rfl
theorem DiffersOnlyInHiddenWords.word_eq {k : Nat} (hk : k < s.wcount.toNat) : u.word k = s.word k := h.2 k hk

theorem DiffersOnlyInHiddenWords.complete (st : Status) (r : Word) :
    DiffersOnlyInHiddenWords (s.complete st r) (u.complete st r) := by
  obtain ⟨m, rfl, hm⟩ := (differsOnlyInHiddenWords_iff s u).1 h
  exact ⟨rfl, hm⟩

theorem DiffersOnlyInHiddenWords.setSlot (k : SlotId) (v : Slot) :
    DiffersOnlyInHiddenWords (s.setSlot k v) (u.setSlot k v) := by
  obtain ⟨m, rfl, hm⟩ := (differsOnlyInHiddenWords_iff s u).1 h
  exact ⟨rfl, hm⟩

theorem DiffersOnlyInHiddenWords.construct (n resv : Nat) :
    DiffersOnlyInHiddenWords (s.construct n resv) (u.construct n resv) := by
  obtain ⟨m, rfl, -⟩ := (differsOnlyInHiddenWords_iff s u).1 h
  exact ⟨rfl, fun _ hk => absurd hk (Nat.not_lt_zero _)⟩

theorem DiffersOnlyInHiddenWords.release : DiffersOnlyInHiddenWords s.release u.release := by
  obtain ⟨m, rfl, -⟩ := (differsOnlyInHiddenWords_iff s u).1 h
  exact ⟨rfl, fun _ hk => absurd hk (Nat.not_lt_zero _)⟩

theorem DiffersOnlyInHiddenWords.accept (rest : List Input) :
    DiffersOnlyInHiddenWords (s.accept rest) (u.accept rest) := by
  obtain ⟨m, rfl, hm⟩ := (differsOnlyInHiddenWords_iff s u).1 h
  rw [accept_eq, accept_eq]
  exact ⟨rfl, hm⟩

/-- A reset replaces every word. -/
theorem DiffersOnlyInHiddenWords.reset (rest : List Input) (contents : List (Nat × Word)) :
    (u.takeInput rest).applyReset contents = (s.takeInput rest).applyReset contents := by
  obtain ⟨m, rfl, -⟩ := (differsOnlyInHiddenWords_iff s u).1 h
  rfl

/-- Writes of one word keep the relation when they agree wherever the word is allocated. -/
theorem DiffersOnlyInHiddenWords.writeWord {k : Nat} {v w : Word} (hv : k < s.wcount.toNat → v = w) :
    DiffersOnlyInHiddenWords (s.writeWord k v) (u.writeWord k w) := by
  obtain ⟨m, rfl, hm⟩ := (differsOnlyInHiddenWords_iff s u).1 h
  refine ⟨rfl, fun j hj => ?_⟩
  rw [word_writeWord, word_writeWord]
  split
  · next e => exact (hv (e ▸ hj)).symm
  · exact hm j hj

theorem DiffersOnlyInHiddenWords.orField (i : Nat) (v : Word) :
    DiffersOnlyInHiddenWords (s.orField i v) (u.orField i v) := by
  simp only [State.orField, h.width_eq]
  split
  · exact (h.writeWord fun hk => by rw [h.word_eq hk]).writeWord fun hk => by rw [h.word_eq hk]
  · exact h.writeWord fun hk => by rw [h.word_eq hk]

theorem DiffersOnlyInHiddenWords.writeField (i : Nat) (v : Word) :
    DiffersOnlyInHiddenWords (s.writeField i v) (u.writeField i v) := by
  simp only [State.writeField, h.width_eq, h.maxWord_eq]
  split
  · exact (h.writeWord fun hk => by rw [h.word_eq hk]).writeWord fun hk => by rw [h.word_eq hk]
  · exact h.writeWord fun hk => by rw [h.word_eq hk]

theorem DiffersOnlyInHiddenWords.append (v : Word) : DiffersOnlyInHiddenWords (s.append v) (u.append v) := by
  have ho := h.orField s.length.toNat v
  rw [State.append, State.append, h.length_eq]
  exact ⟨by rw [ho.1], fun k hk => ho.word_eq hk⟩

/-- The word an allocation adds to the visible ones is zero in both states. -/
theorem DiffersOnlyInHiddenWords.allocate : DiffersOnlyInHiddenWords s.allocate u.allocate := by
  refine ⟨?_, fun k hk => ?_⟩
  · obtain ⟨m, rfl, -⟩ := (differsOnlyInHiddenWords_iff s u).1 h
    rfl
  · rw [allocate_wcount] at hk
    rw [allocate_word, allocate_word, h.wcount_eq]
    split
    · rfl
    · exact h.word_eq (by bv_omega)

/-- An element whose words are allocated reads the same in both states. -/
theorem DiffersOnlyInHiddenWords.extract_eq {i : Nat} (hi : lastWord s.width i < s.wcount.toNat) :
    u.extract i = s.extract i := by
  have hfirst := h.word_eq (Nat.lt_of_le_of_lt (wordIndex_le_lastWord ..) hi)
  simp only [State.extract, h.width_eq, h.maxWord_eq, hfirst]
  split
  · next hs => rw [h.word_eq (by simpa [lastWord, hs] using hi)]
  · rfl

end

/-! ## The commands, from the operations -/

/-- Every next state of the first outcome has a partner among those of the second that differs from it in hidden words only. -/
def MatchedBy (p q : Result) : Prop := ∀ t, p = .next t → ∃ w, q = .next w ∧ DiffersOnlyInHiddenWords t w

theorem matchedBy_next {t w : State} (h : DiffersOnlyInHiddenWords t w) : MatchedBy (.next t) (.next w) := by
  rintro _ ⟨⟩
  exact ⟨w, rfl, h⟩

theorem matchedBy_finish {s u : State} (h : DiffersOnlyInHiddenWords s u) (st : Status) {r r' : Word} (hr : r' = r) :
    MatchedBy (finish st r s) (finish st r' u) := by
  rw [hr]
  exact matchedBy_next (h.complete st r)

theorem matchedBy_raise {s u : State} (h : DiffersOnlyInHiddenWords s u) (st : Status) :
    MatchedBy (raise st s) (raise st u) :=
  matchedBy_finish h st rfl

theorem matchedBy_ite {c : Prop} [Decidable c] {p q p' q' : Result} (h1 : c → MatchedBy p p')
    (h2 : ¬ c → MatchedBy q q') : MatchedBy (if c then p else q) (if c then p' else q') := by
  split
  · next hc => exact h1 hc
  · next hc => exact h2 hc

section
variable {s : State} {m : Storage} (h : DiffersOnlyInHiddenWords s (s.withStorage m))
include h

theorem matchedBy_unlessRefused {refusal : Option Status} {go go' : Result} (hgo : MatchedBy go go') :
    MatchedBy (unlessRefused refusal s go) (unlessRefused refusal (s.withStorage m) go') := by
  cases refusal with
  | none => exact hgo
  | some st => exact matchedBy_raise h st

omit h in
theorem matchedBy_onElement {i : Nat} {go go' : Result} (hgo : MatchedBy go go') :
    MatchedBy (onElement i s go) (onElement i (s.withStorage m) go') :=
  matchedBy_ite (fun _ => hgo) fun _ => by rintro _ ⟨⟩

theorem matchedBy_execPush (v : Word) : MatchedBy (execPush v s) (execPush v (s.withStorage m)) := by
  refine matchedBy_unlessRefused h (matchedBy_ite (fun _ => matchedBy_raise h _)
    fun _ => matchedBy_ite (fun _ => matchedBy_raise h _) fun _ => matchedBy_onElement (matchedBy_finish ?_ _ rfl))
  have hn : (s.withStorage m).needsWord = s.needsWord := rfl
  rw [hn]
  split
  · exact h.allocate.append v
  · exact h.append v

theorem matchedBy_execGet (hs : BlockInv s) (a : Word) : MatchedBy (execGet a s) (execGet a (s.withStorage m)) :=
  matchedBy_unlessRefused h (matchedBy_ite (fun _ => matchedBy_finish h _ rfl) fun hl =>
    matchedBy_onElement (matchedBy_finish h _ (h.extract_eq (lastWord_lt_wcount hs (BitVec.not_le.1 hl)))))

theorem matchedBy_execGetUnchecked (a : Word) :
    MatchedBy (execGetUnchecked a s) (execGetUnchecked a (s.withStorage m)) :=
  matchedBy_unlessRefused h (matchedBy_ite (fun _ => matchedBy_raise h _) fun hi =>
    matchedBy_onElement (matchedBy_finish h _ (h.extract_eq (by simpa [State.inStorage] using hi))))

theorem matchedBy_execSet (a v : Word) : MatchedBy (execSet a v s) (execSet a v (s.withStorage m)) :=
  matchedBy_unlessRefused h (matchedBy_ite (fun _ => matchedBy_raise h _) fun _ =>
    matchedBy_ite (fun _ => matchedBy_raise h _) fun _ =>
      matchedBy_onElement (matchedBy_finish (h.writeField a.toNat v) _ rfl))

theorem matchedBy_execSetUnchecked (a v : Word) :
    MatchedBy (execSetUnchecked a v s) (execSetUnchecked a v (s.withStorage m)) :=
  matchedBy_unlessRefused h (matchedBy_ite (fun _ => matchedBy_raise h _) fun _ =>
    matchedBy_ite (fun _ => matchedBy_raise h _) fun _ =>
      matchedBy_onElement (matchedBy_finish (h.writeField a.toNat v) _ rfl))

theorem matchedBy_execIterNext (hs : BlockInv s) (k : SlotId) :
    MatchedBy (execIterNext k s) (execIterNext k (s.withStorage m)) :=
  matchedBy_ite (fun _ => matchedBy_raise h _) fun _ =>
    matchedBy_ite (fun _ => matchedBy_finish h _ rfl) fun hl =>
      matchedBy_onElement (matchedBy_finish (h.setSlot k _) _
        (h.extract_eq (lastWord_lt_wcount hs (BitVec.not_le.1 hl))))

theorem matchedBy_execIterDrop (k : SlotId) : MatchedBy (execIterDrop k s) (execIterDrop k (s.withStorage m)) := by
  refine matchedBy_ite (fun _ => matchedBy_raise h _) fun _ => matchedBy_finish ?_ _ rfl
  have hk : (s.withStorage m).slot k = s.slot k := rfl
  rw [hk]
  split
  · exact h.release.setSlot k _
  · exact h.setSlot k _

theorem matchedBy_execRdreg (a : Word) : MatchedBy (execRdreg a s) (execRdreg a (s.withStorage m)) := by
  unfold execRdreg
  cases Reg.ofNumber a with
  | none => exact matchedBy_raise h _
  | some r => exact matchedBy_finish h _ (by cases r <;> rfl)

theorem matchedBy_execRdword (a : Word) : MatchedBy (execRdword a s) (execRdword a (s.withStorage m)) :=
  matchedBy_ite (fun _ => matchedBy_raise h _) fun hl =>
    matchedBy_ite (fun _ => matchedBy_finish h _ (h.word_eq (BitVec.not_le.1 hl))) fun _ => by rintro _ ⟨⟩

/-- No command observes a hidden word. -/
theorem matchedBy_exec (hs : BlockInv s) (i : Instr) : MatchedBy (exec i s) (exec i (s.withStorage m)) := by
  cases i with
  | new n => exact matchedBy_ite (fun _ => matchedBy_raise h _) fun _ => matchedBy_finish (h.construct n 0) _ rfl
  | withCapacity n a =>
    exact matchedBy_ite (fun _ => matchedBy_raise h _) fun _ =>
      matchedBy_ite (fun _ => matchedBy_raise h _) fun _ => matchedBy_finish (h.construct n _) _ rfl
  | len | capacity => exact matchedBy_unlessRefused h (matchedBy_finish h _ rfl)
  | push v => exact matchedBy_execPush h v
  | get a => exact matchedBy_execGet h hs a
  | getUnchecked a => exact matchedBy_execGetUnchecked h a
  | set a v => exact matchedBy_execSet h a v
  | setUnchecked a v => exact matchedBy_execSetUnchecked h a v
  | iter k | intoIter k =>
    exact matchedBy_ite (fun _ => matchedBy_raise h _) fun _ =>
      matchedBy_unlessRefused h (matchedBy_finish (h.setSlot k _) _ rfl)
  | iterNext k => exact matchedBy_execIterNext h hs k
  | iterDrop k => exact matchedBy_execIterDrop h k
  | rdreg a => exact matchedBy_execRdreg h a
  | rdword a => exact matchedBy_execRdword h a

end

/-- No command word observes a hidden word. -/
theorem matchedBy_runCommand {s u : State} (hs : BlockInv s) (h : DiffersOnlyInHiddenWords s u) (c : Command) :
    MatchedBy (runCommand c s) (runCommand c u) := by
  obtain ⟨m, rfl, -⟩ := (differsOnlyInHiddenWords_iff s u).1 h
  unfold runCommand
  cases decode c with
  | none => exact matchedBy_raise h _
  | some i => exact matchedBy_exec h hs i

/-- Settles O55: the acts of the host are the same in both states, and each keeps the relation. -/
theorem hiddenWordsAreNeverObserved : Obligations.HiddenWordsAreNeverObserved := by
  intro s u t hs h hstep
  have hin : u.inputs = s.inputs := by rw [h.1]
  rcases step_cases hstep with ⟨hnil, rfl⟩ | ⟨c, rest, hc, hrun⟩ | ⟨rest, ht, rfl⟩ | ⟨contents, rest, hr, rfl⟩
  · exact ⟨u, step_nil (hin.trans hnil), h⟩
  · rw [step_command (hin.trans hc)]
    exact matchedBy_runCommand (blockInv_accept hs rest) (h.accept rest) c t hrun
  · exact ⟨u.accept rest, step_takeResponse (hin.trans ht), h.accept rest⟩
  · refine ⟨_, step_reset (hin.trans hr), ?_⟩
    rw [h.reset rest contents]
    exact .refl _

end Sys2Proof.Machine
end

section
/-! PROOF. What extraction reads of each storage bit (20_memory.md R52). -/
namespace Sys2Proof.Machine

/-- `extract` reads one or two words. -/
theorem extract_cases (s : State) (i : Nat) :
    (spans s.width i = false ∧
      s.extract i = (s.word (wordIndex s.width i) >>> bitOffset s.width i) &&& s.maxWord) ∨
    (spans s.width i = true ∧
      s.extract i = ((s.word (wordIndex s.width i) >>> bitOffset s.width i) |||
        (s.word (wordIndex s.width i + 1) <<< available s.width i)) &&& s.maxWord) := by
  cases h : spans s.width i <;> simp [State.extract, h]

/-- The element's first word, shifted down by the element's offset: the storage bits from the element's start to the word's end. -/
theorem getLsbD_firstWord (s : State) (i j : Nat) :
    (s.word (wordIndex s.width i) >>> bitOffset s.width i).getLsbD j =
      (decide (j < available s.width i) && s.storageBit (i * s.width + j)) := by
  rw [BitVec.getLsbD_ushiftRight, State.storageBit]
  simp only [wordIndex, bitOffset, available, bitPos]
  by_cases hj : j < 32 - i * s.width % 32
  · rw [show (i * s.width + j) / 32 = i * s.width / 32 by omega,
      show (i * s.width + j) % 32 = i * s.width % 32 + j by omega]
    simp [hj]
  · have hbeyond : 32 ≤ i * s.width % 32 + j := by omega
    simp [hj, BitVec.getLsbD_of_ge _ _ hbeyond]

/-- The element's second word, shifted up by the bits available in the first: the storage bits from that word's start. -/
theorem getLsbD_secondWord (s : State) {i j : Nat} (hj : j < 32) :
    (s.word (wordIndex s.width i + 1) <<< available s.width i).getLsbD j =
      (!decide (j < available s.width i) && s.storageBit (i * s.width + j)) := by
  rw [BitVec.getLsbD_shiftLeft, decide_eq_true hj, Bool.true_and, State.storageBit]
  simp only [wordIndex, bitOffset, available, bitPos]
  by_cases hlow : j < 32 - i * s.width % 32
  · simp [hlow]
  · rw [show (i * s.width + j) / 32 = i * s.width / 32 + 1 by omega,
      show (i * s.width + j) % 32 = j - (32 - i * s.width % 32) by omega]

/-- A word whose low N bits are an element's bits is the element once the mask has cleared the bits above. -/
theorem isElement_and_maxWord {s : State} {i : Nat} {w : Word}
    (h : ∀ j, j < s.width → w.getLsbD j = s.storageBit (i * s.width + j)) : IsElement s i (w &&& s.maxWord) := by
  intro j
  rw [BitVec.getLsbD_and, maxWord_getLsbD]
  by_cases hj : j < s.width
  · simp [hj, h j hj]
  · simp [hj]

/-- `extract(i)` (41_element_access.md R124) is element `i`: the bits that its first word does not hold come from the second. -/
theorem isElement_extract (s : State) (i : Nat) : IsElement s i (s.extract i) := by
  rcases extract_cases s i with ⟨hs, e⟩ | ⟨-, e⟩
  · rw [e]
    refine isElement_and_maxWord fun j hj => ?_
    have hfits : s.width ≤ available s.width i := Nat.not_lt.1 (of_decide_eq_false hs)
    rw [getLsbD_firstWord, decide_eq_true (Nat.lt_of_lt_of_le hj hfits), Bool.true_and]
  · rw [e]
    refine isElement_and_maxWord fun j hj => ?_
    rw [BitVec.getLsbD_or, getLsbD_firstWord, getLsbD_secondWord s (Nat.lt_of_lt_of_le hj (width_le s)),
      ← Bool.and_or_distrib_right, Bool.or_not_self, Bool.true_and]

/-- An element's value has no bit at or above N. -/
theorem IsElement.toNat_lt {s : State} {i : Nat} {r : Word} (h : IsElement s i r) : r.toNat < 2 ^ s.width := by
  refine Nat.lt_pow_two_of_testBit _ fun j hj => ?_
  rw [BitVec.testBit_toNat, h j, decide_eq_false (Nat.not_lt.2 hj), Bool.false_and]

/-- Settles O27: a storage bit is a word bit by definition, and the extracted bits are the element's, in one word or in two. -/
theorem extractReadsTheElementsBits : Obligations.ExtractReadsTheElementsBits :=
  ⟨fun _ _ => rfl, fun s i => ⟨isElement_extract s i, (isElement_extract s i).toNat_lt⟩⟩

end Sys2Proof.Machine
end

section
/-! PROOF. The encoding (30_encoding.md R72 to R77): the commands that spell each instruction, row by row, and the decoder as the
function that reads them. Every statement about `decode` below is a case analysis on this. -/
namespace Sys2Proof

/-! ## The fields of a command word as numbers (R72) -/

theorem opField_toNat (w : Word) : (opField w).toNat = w.toNat % 16 := by
  simp [opField, BitVec.extractLsb'_toNat]
theorem slotField_toNat (w : Word) : (slotField w).toNat = w.toNat / 16 % 4 := by
  simp [slotField, BitVec.extractLsb'_toNat, Nat.shiftRight_eq_div_pow]
theorem reservedLow_toNat (w : Word) : (reservedLow w).toNat = w.toNat / 64 % 4 := by
  simp [reservedLow, BitVec.extractLsb'_toNat, Nat.shiftRight_eq_div_pow]
theorem nm1Field_toNat (w : Word) : (nm1Field w).toNat = w.toNat / 256 % 32 := by
  simp [nm1Field, BitVec.extractLsb'_toNat, Nat.shiftRight_eq_div_pow]
theorem reservedHigh_toNat (w : Word) : (reservedHigh w).toNat = w.toNat / 8192 := by
  have := w.isLt
  simp only [reservedHigh, BitVec.extractLsb'_toNat, Nat.shiftRight_eq_div_pow]
  omega

/-- The five fields make up the word. -/
theorem word_ext {v w : Word} (hop : opField v = opField w) (hslot : slotField v = slotField w)
    (hlow : reservedLow v = reservedLow w) (hnm1 : nm1Field v = nm1Field w) (hhigh : reservedHigh v = reservedHigh w) :
    v = w := by
  have hop := congrArg BitVec.toNat hop
  have hslot := congrArg BitVec.toNat hslot
  have hlow := congrArg BitVec.toNat hlow
  have hnm1 := congrArg BitVec.toNat hnm1
  have hhigh := congrArg BitVec.toNat hhigh
  simp only [opField_toNat, slotField_toNat, reservedLow_toNat, nm1Field_toNat, reservedHigh_toNat] at hop hslot hlow hnm1 hhigh
  exact BitVec.eq_of_toNat_eq (by omega)

/-- A word without reserved bits is made of its fields. -/
theorem commandWord_fields {w : Word} (hlow : reservedLow w = 0) (hhigh : reservedHigh w = 0) :
    commandWord (nm1Field w) (slotField w) (opField w) = w := by
  refine word_ext ?_ ?_ ?_ ?_ ?_ <;> simp [hlow, hhigh]

/-- The width of R75 has the NM1 field it was read from. -/
theorem nm1OfWidth_add_one (n : BitVec 5) : nm1OfWidth (n.toNat + 1) = n := by
  simp [nm1OfWidth]

theorem widthOk_add_one (n : BitVec 5) : widthOk (n.toNat + 1) = true := by
  have := n.isLt
  simp only [widthOk, Bool.and_eq_true, decide_eq_true_eq]
  omega

/-! ## Which commands spell an instruction -/

/-- `Spells c i`: the word of command `c` is the row of instruction `i` with the fields of `i` (R74, R75), and the operands that `i`
uses are those of `c` (R73). The operands that `i` does not use are any words (R76). -/
inductive Spells (c : Command) : Instr → Prop
  | new (n : Nat) (width : widthOk n = true) (word : c.word = commandWord (nm1OfWidth n) 0 0x1) : Spells c (.new n)
  | withCapacity (n : Nat) (width : widthOk n = true) (word : c.word = commandWord (nm1OfWidth n) 0 0x2) :
      Spells c (.withCapacity n c.a)
  | len (word : c.word = commandWord 0 0 0x3) : Spells c .len
  | capacity (word : c.word = commandWord 0 0 0x4) : Spells c .capacity
  | push (word : c.word = commandWord 0 0 0x5) : Spells c (.push c.b)
  | get (word : c.word = commandWord 0 0 0x6) : Spells c (.get c.a)
  | getUnchecked (word : c.word = commandWord 0 0 0x7) : Spells c (.getUnchecked c.a)
  | set (word : c.word = commandWord 0 0 0x8) : Spells c (.set c.a c.b)
  | setUnchecked (word : c.word = commandWord 0 0 0x9) : Spells c (.setUnchecked c.a c.b)
  | iter (k : SlotId) (word : c.word = commandWord 0 (slotBits k) 0xA) : Spells c (.iter k)
  | intoIter (k : SlotId) (word : c.word = commandWord 0 (slotBits k) 0xB) : Spells c (.intoIter k)
  | iterNext (k : SlotId) (word : c.word = commandWord 0 (slotBits k) 0xC) : Spells c (.iterNext k)
  | iterDrop (k : SlotId) (word : c.word = commandWord 0 (slotBits k) 0xD) : Spells c (.iterDrop k)
  | rdreg (word : c.word = commandWord 0 0 0xE) : Spells c (.rdreg c.a)
  | rdword (word : c.word = commandWord 0 0 0xF) : Spells c (.rdword c.a)

/-- The assembler's command for a well-formed instruction spells it. -/
theorem spells_encode {i : Instr} (h : i.wellFormed = true) : Spells (encode i) i := by
  cases i with
  | new n => exact .new n h rfl
  | withCapacity n a => exact .withCapacity n h rfl
  | _ => constructor; rfl

/-- What is spelt is well-formed, and its encoding has the same word. -/
theorem Spells.wellFormed_and_word {c : Command} {i : Instr} (h : Spells c i) :
    i.wellFormed = true ∧ (encode i).word = c.word := by
  cases h with
  | new _ hn word | withCapacity _ hn word => exact ⟨hn, word.symm⟩
  | _ => exact ⟨rfl, Eq.symm ‹_›⟩

/-- The decoder reads what is spelt: the word is legal, and its fields are read back. -/
theorem Spells.decode_eq {c : Command} {i : Instr} (h : Spells c i) : decode c = some i := by
  cases h with
  | new n hn word | withCapacity n hn word =>
    simp [decode, word, illegal_commandWord, opUsesNm1, widthOf, nm1OfWidth_toNat n hn]
  | iter _ word | intoIter _ word | iterNext _ word | iterDrop _ word =>
    simp [decode, word, illegal_commandWord, opUsesSlot, slotOf, slotBits]
  | len word | capacity word | push word | get word | getUnchecked word | set word | setUnchecked word | rdreg word
  | rdword word => simp [decode, word, illegal_commandWord]

/-- An OP that is assigned and uses neither NM1 nor SLOT is one of nine (R73). -/
theorem op_uses_no_field {op : BitVec 4} (h0 : op ≠ 0) (hn : opUsesNm1 op = false) (hs : opUsesSlot op = false) :
    op = 0x3 ∨ op = 0x4 ∨ op = 0x5 ∨ op = 0x6 ∨ op = 0x7 ∨ op = 0x8 ∨ op = 0x9 ∨ op = 0xE ∨ op = 0xF := by
  revert op; decide

/-- No OP uses both fields (R72). -/
theorem opUsesSlot_of_opUsesNm1 {op : BitVec 4} (hn : opUsesNm1 op = true) : opUsesSlot op = false := by
  revert op; decide

/-- A legal word is made of an assigned OP, and of fields that are 0 unless the OP uses them (R77). -/
theorem fields_of_legal {w : Word} (h : illegal w = false) :
    w = commandWord (nm1Field w) (slotField w) (opField w) ∧ opField w ≠ 0 ∧
    (opUsesSlot (opField w) = false → slotField w = 0) ∧ (opUsesNm1 (opField w) = false → nm1Field w = 0) := by
  simp only [illegal, Bool.or_eq_false_iff, beq_eq_false_iff_ne, bne_eq_false_iff_eq] at h
  obtain ⟨⟨⟨hop, hhigh, hlow⟩, hslot⟩, hnm1⟩ := h
  exact ⟨(commandWord_fields hlow hhigh).symm, hop, fun hs => by simpa [hs] using hslot, fun hn => by simpa [hn] using hnm1⟩

/-- Every legal word spells an instruction, with any operands: by the fields its OP uses, and then by its OP. -/
theorem exists_spells_of_legal {c : Command} (h : illegal c.word = false) : ∃ i, Spells c i := by
  obtain ⟨word, hop, hslot, hnm1⟩ := fields_of_legal h
  generalize nm1Field c.word = n at *
  generalize slotField c.word = k at *
  generalize opField c.word = op at *
  cases hn : opUsesNm1 op
  · rw [hnm1 hn] at word
    cases hs : opUsesSlot op
    · rw [hslot hs] at word
      rcases op_uses_no_field hop hn hs with rfl | rfl | rfl | rfl | rfl | rfl | rfl | rfl | rfl
      · exact ⟨_, .len word⟩
      · exact ⟨_, .capacity word⟩
      · exact ⟨_, .push word⟩
      · exact ⟨_, .get word⟩
      · exact ⟨_, .getUnchecked word⟩
      · exact ⟨_, .set word⟩
      · exact ⟨_, .setUnchecked word⟩
      · exact ⟨_, .rdreg word⟩
      · exact ⟨_, .rdword word⟩
    · simp only [opUsesSlot, Bool.or_eq_true, beq_iff_eq] at hs
      rcases hs with ((rfl | rfl) | rfl) | rfl
      · exact ⟨_, .iter k.toFin word⟩
      · exact ⟨_, .intoIter k.toFin word⟩
      · exact ⟨_, .iterNext k.toFin word⟩
      · exact ⟨_, .iterDrop k.toFin word⟩
  · rw [hslot (opUsesSlot_of_opUsesNm1 hn), ← nm1OfWidth_add_one n] at word
    simp only [opUsesNm1, Bool.or_eq_true, beq_iff_eq] at hn
    rcases hn with rfl | rfl
    · exact ⟨_, .new _ (widthOk_add_one n) word⟩
    · exact ⟨_, .withCapacity _ (widthOk_add_one n) word⟩

theorem decode_eq_none_iff (c : Command) : decode c = none ↔ illegal c.word = true := by
  refine ⟨fun hd => ?_, fun h => if_pos h⟩
  by_contra h
  obtain ⟨i, hi⟩ := exists_spells_of_legal (by simpa using h)
  exact absurd (hd.symm.trans hi.decode_eq) nofun

/-- The decoder gives exactly what a command spells. -/
theorem decode_eq_some_iff {c : Command} {i : Instr} : decode c = some i ↔ Spells c i := by
  refine ⟨fun hd => ?_, Spells.decode_eq⟩
  have hlegal : illegal c.word ≠ true := fun h => absurd (((decode_eq_none_iff c).2 h).symm.trans hd) nofun
  obtain ⟨j, hj⟩ := exists_spells_of_legal (by simpa using hlegal)
  rwa [← Option.some.inj (hj.decode_eq.symm.trans hd)]

/-- Settles O5: the encoding of a well-formed instruction spells it. -/
theorem decodeOfEncodeIsTheInstruction : Obligations.DecodeOfEncodeIsTheInstruction :=
  fun _ h => (spells_encode h).decode_eq

/-- Settles O6: a command is decoded to what it spells. -/
theorem encodeOfDecodeIsTheWord : Obligations.EncodeOfDecodeIsTheWord :=
  fun _ _ h => (decode_eq_some_iff.1 h).wellFormed_and_word

end Sys2Proof
end

section
/-! PROOF. The rows of R74 and the legality of R77, read off the word as masks and numbers. -/
namespace Sys2Proof

/-! ## Selecting a row by match and mask (R74) -/

@[simp] theorem opField_and (v w : Word) : opField (v &&& w) = opField v &&& opField w := BitVec.extractLsb'_and
@[simp] theorem slotField_and (v w : Word) : slotField (v &&& w) = slotField v &&& slotField w := BitVec.extractLsb'_and
@[simp] theorem reservedLow_and (v w : Word) : reservedLow (v &&& w) = reservedLow v &&& reservedLow w :=
  BitVec.extractLsb'_and
@[simp] theorem nm1Field_and (v w : Word) : nm1Field (v &&& w) = nm1Field v &&& nm1Field w := BitVec.extractLsb'_and
@[simp] theorem reservedHigh_and (v w : Word) : reservedHigh (v &&& w) = reservedHigh v &&& reservedHigh w :=
  BitVec.extractLsb'_and

theorem word_ext_iff {v w : Word} : v = w ↔ opField v = opField w ∧ slotField v = slotField w ∧
    reservedLow v = reservedLow w ∧ nm1Field v = nm1Field w ∧ reservedHigh v = reservedHigh w := by
  refine ⟨fun h => by simp [h], fun ⟨hop, hslot, hlow, hnm1, hhigh⟩ => word_ext hop hslot hlow hnm1 hhigh⟩

/-- The mask of the constructors' rows spares the NM1 field. -/
theorem and_nm1Mask_eq_iff (w : Word) (op : BitVec 4) :
    w &&& 0xFFFFE0FF = commandWord 0 0 op ↔ w = commandWord (nm1Field w) 0 op := by
  have hop : opField 0xFFFFE0FF#32 = BitVec.allOnes 4 := by decide
  have hslot : slotField 0xFFFFE0FF#32 = BitVec.allOnes 2 := by decide
  have hlow : reservedLow 0xFFFFE0FF#32 = BitVec.allOnes 2 := by decide
  have hnm1 : nm1Field 0xFFFFE0FF#32 = 0 := by decide
  have hhigh : reservedHigh 0xFFFFE0FF#32 = BitVec.allOnes 19 := by decide
  rw [word_ext_iff, word_ext_iff]
  simp [hop, hslot, hlow, hnm1, hhigh, -BitVec.reduceAllOnes]

/-- The mask of the iterator commands' rows spares the SLOT field. -/
theorem and_slotMask_eq_iff (w : Word) (op : BitVec 4) :
    w &&& 0xFFFFFFCF = commandWord 0 0 op ↔ w = commandWord 0 (slotField w) op := by
  have hop : opField 0xFFFFFFCF#32 = BitVec.allOnes 4 := by decide
  have hslot : slotField 0xFFFFFFCF#32 = 0 := by decide
  have hlow : reservedLow 0xFFFFFFCF#32 = BitVec.allOnes 2 := by decide
  have hnm1 : nm1Field 0xFFFFFFCF#32 = BitVec.allOnes 5 := by decide
  have hhigh : reservedHigh 0xFFFFFFCF#32 = BitVec.allOnes 19 := by decide
  rw [word_ext_iff, word_ext_iff]
  simp [hop, hslot, hlow, hnm1, hhigh, -BitVec.reduceAllOnes]

/-- A command's word selects the row of the instruction it spells. -/
theorem Spells.selects_row {c : Command} {i : Instr} (h : Spells c i) :
    ∃ r ∈ opcodeRows, r.mnemonic = i.mnemonic ∧ c.word &&& r.mask = r.pattern := by
  cases h with
  | new n _ word =>
    exact ⟨⟨"NEW", 0x1, 0xFFFFE0FF⟩, by simp [opcodeRows], rfl, (and_nm1Mask_eq_iff c.word 0x1).2 (by simp [word])⟩
  | withCapacity n _ word =>
    exact ⟨⟨"WITH_CAPACITY", 0x2, 0xFFFFE0FF⟩, by simp [opcodeRows], rfl, (and_nm1Mask_eq_iff c.word 0x2).2 (by simp [word])⟩
  | iter k word =>
    exact ⟨⟨"ITER", 0xA, 0xFFFFFFCF⟩, by simp [opcodeRows], rfl, (and_slotMask_eq_iff c.word 0xA).2 (by simp [word])⟩
  | intoIter k word =>
    exact ⟨⟨"INTO_ITER", 0xB, 0xFFFFFFCF⟩, by simp [opcodeRows], rfl, (and_slotMask_eq_iff c.word 0xB).2 (by simp [word])⟩
  | iterNext k word =>
    exact ⟨⟨"ITER_NEXT", 0xC, 0xFFFFFFCF⟩, by simp [opcodeRows], rfl, (and_slotMask_eq_iff c.word 0xC).2 (by simp [word])⟩
  | iterDrop k word =>
    exact ⟨⟨"ITER_DROP", 0xD, 0xFFFFFFCF⟩, by simp [opcodeRows], rfl, (and_slotMask_eq_iff c.word 0xD).2 (by simp [word])⟩
  | _ =>
    simp only [Instr.mnemonic, ‹c.word = _›]
    decide

/-- A word that selects a constructor's row is the row with the width of R75. -/
theorem word_of_nm1Mask {w : Word} {op : BitVec 4} (h : w &&& 0xFFFFE0FF = commandWord 0 0 op) :
    widthOk (w.toNat / 256 % 32 + 1) = true ∧ w = commandWord (nm1OfWidth (w.toNat / 256 % 32 + 1)) 0 op := by
  rw [← nm1Field_toNat, nm1OfWidth_add_one]
  exact ⟨widthOk_add_one _, (and_nm1Mask_eq_iff w op).1 h⟩

/-- A word that selects an iterator command's row is the row with the slot of R75. -/
theorem word_of_slotMask {w : Word} {op : BitVec 4} {k : SlotId} (hk : k.val = w.toNat / 16 % 4)
    (h : w &&& 0xFFFFFFCF = commandWord 0 0 op) : w = commandWord 0 (slotBits k) op := by
  have hslot : slotField w = slotBits k := BitVec.eq_of_toNat_eq ((slotField_toNat w).trans hk.symm)
  rw [← hslot]
  exact (and_slotMask_eq_iff w op).1 h

/-- Settles O7: a word that selects a row spells the row's instruction, and R74's examples do; a word that spells an instruction
selects a row. -/
theorem wordsDecodeByTheirRows : Obligations.WordsDecodeByTheirRows := by
  refine ⟨fun c => ⟨fun h => ?_, fun h => ?_, fun h => (Spells.len h).decode_eq, fun h => (Spells.capacity h).decode_eq,
    fun h => (Spells.push h).decode_eq, fun h => (Spells.get h).decode_eq, fun h => (Spells.getUnchecked h).decode_eq,
    fun h => (Spells.set h).decode_eq, fun h => (Spells.setUnchecked h).decode_eq,
    fun k hk => ⟨fun h => (Spells.iter k (word_of_slotMask hk h)).decode_eq,
      fun h => (Spells.intoIter k (word_of_slotMask hk h)).decode_eq,
      fun h => (Spells.iterNext k (word_of_slotMask hk h)).decode_eq,
      fun h => (Spells.iterDrop k (word_of_slotMask hk h)).decode_eq⟩,
    fun h => (Spells.rdreg h).decode_eq, fun h => (Spells.rdword h).decode_eq, fun hno => ?_⟩, fun a b => ⟨?_, ?_, ?_, ?_⟩⟩
  · obtain ⟨hwidth, word⟩ := word_of_nm1Mask (op := 0x1) h
    exact (Spells.new _ hwidth word).decode_eq
  · obtain ⟨hwidth, word⟩ := word_of_nm1Mask (op := 0x2) h
    exact (Spells.withCapacity _ hwidth word).decode_eq
  · rw [Option.eq_none_iff_forall_not_mem]
    intro i hi
    obtain ⟨r, hr, -, hmatch⟩ := (decode_eq_some_iff.1 hi).selects_row
    exact hno r hr hmatch
  · exact (Spells.new 9 rfl rfl).decode_eq
  · exact (Spells.new 32 rfl rfl).decode_eq
  · exact (Spells.withCapacity 8 rfl rfl).decode_eq
  · exact (Spells.iterNext 2 rfl).decode_eq

/-- Settles O8: the words are closed terms, and the decoder computes. -/
theorem listedWordsDecodeAsListed : Obligations.ListedWordsDecodeAsListed := by
  unfold Obligations.ListedWordsDecodeAsListed
  decide

/-! ## Illegal words (R77) -/

/-- The illegal words of R77, read off the word as a number. -/
theorem illegal_iff (w : Word) : illegal w = true ↔
    w.toNat % 16 = 0 ∨ w.toNat / 8192 ≠ 0 ∨ w.toNat / 64 % 4 ≠ 0 ∨
    (w.toNat / 16 % 4 ≠ 0 ∧
      ¬ (w.toNat % 16 = 0xA ∨ w.toNat % 16 = 0xB ∨ w.toNat % 16 = 0xC ∨ w.toNat % 16 = 0xD)) ∨
    (w.toNat / 256 % 32 ≠ 0 ∧ ¬ (w.toNat % 16 = 0x1 ∨ w.toNat % 16 = 0x2)) := by
  simp only [illegal, opUsesSlot, opUsesNm1, Bool.or_eq_true, Bool.and_eq_true, beq_iff_eq, bne_iff_ne, Bool.not_eq_true',
    Bool.or_eq_false_iff, beq_eq_false_iff_ne, ne_eq, ← BitVec.toNat_inj, opField_toNat, slotField_toNat, reservedLow_toNat,
    nm1Field_toNat, reservedHigh_toNat, not_or, or_assoc, and_assoc]
  rfl

/-! ## Operands (R76) -/

/-- What a command spells depends on its word and on the operands that the OP uses (R73). -/
theorem Spells.of_used_operands {c d : Command} {i : Instr} (h : Spells c i) (hword : d.word = c.word)
    (ha : c.word.toNat % 16 ∈ [0x2, 0x6, 0x7, 0x8, 0x9, 0xE, 0xF] → c.a = d.a)
    (hb : c.word.toNat % 16 ∈ [0x5, 0x8, 0x9] → c.b = d.b) : Spells d i := by
  rw [← opField_toNat] at ha hb
  cases h with
  | new n hn word => exact .new n hn (hword.trans word)
  | withCapacity n hn word => rw [ha (by simp [word])]; exact .withCapacity n hn (hword.trans word)
  | len word => exact .len (hword.trans word)
  | capacity word => exact .capacity (hword.trans word)
  | push word => rw [hb (by simp [word])]; exact .push (hword.trans word)
  | get word => rw [ha (by simp [word])]; exact .get (hword.trans word)
  | getUnchecked word => rw [ha (by simp [word])]; exact .getUnchecked (hword.trans word)
  | set word => rw [ha (by simp [word]), hb (by simp [word])]; exact .set (hword.trans word)
  | setUnchecked word => rw [ha (by simp [word]), hb (by simp [word])]; exact .setUnchecked (hword.trans word)
  | iter k word => exact .iter k (hword.trans word)
  | intoIter k word => exact .intoIter k (hword.trans word)
  | iterNext k word => exact .iterNext k (hword.trans word)
  | iterDrop k word => exact .iterDrop k (hword.trans word)
  | rdreg word => rw [ha (by simp [word])]; exact .rdreg (hword.trans word)
  | rdword word => rw [ha (by simp [word])]; exact .rdword (hword.trans word)

/-- No operand makes a word illegal. -/
theorem decode_eq_none_of_word_eq {c d : Command} (hword : d.word = c.word) (h : decode c = none) : decode d = none := by
  rw [decode_eq_none_iff] at h ⊢
  rw [hword, h]

theorem decode_eq_of_used_operands {c d : Command} (hword : d.word = c.word)
    (ha : c.word.toNat % 16 ∈ [0x2, 0x6, 0x7, 0x8, 0x9, 0xE, 0xF] → c.a = d.a)
    (hb : c.word.toNat % 16 ∈ [0x5, 0x8, 0x9] → c.b = d.b) : decode c = decode d := by
  cases hd : decode c with
  | none => exact (decode_eq_none_of_word_eq hword hd).symm
  | some i => exact (((decode_eq_some_iff.1 hd).of_used_operands hword ha hb).decode_eq).symm

end Sys2Proof

namespace Sys2Proof.Machine

/-! ## Running a command word -/

theorem runCommand_of_some {c : Command} {i : Instr} (h : decode c = some i) (s : State) : runCommand c s = exec i s := by
  simp only [runCommand, h]

theorem runCommand_of_none {c : Command} (h : decode c = none) (s : State) : runCommand c s = raise .eIllegal s := by
  simp only [runCommand, h]

/-- Settles O9: the decoder refuses exactly the illegal words, and a refused command raises E_ILLEGAL, whose code is 5. -/
theorem illegalWordsCompleteWithEIllegal : Obligations.IllegalWordsCompleteWithEIllegal := by
  have hnone (c : Command) := (decode_eq_none_iff c).trans (illegal_iff c.word)
  refine ⟨.inl rfl, hnone, fun c s h => ⟨s.complete .eIllegal 0, ?_, rfl, rfl, rfl, fun b => ?_, sameBlock_complete .., rfl, rfl,
    rfl⟩⟩
  · exact runCommand_of_none ((hnone c).2 h) s
  · have hbit : (2 ≤ b ∧ b = Status.eIllegal.code.toNat) ↔ b = 5 := ⟨And.right, by rintro rfl; exact ⟨by decide, rfl⟩⟩
    rw [errlogWord_complete, decide_eq_decide.2 hbit]

/-- Settles O10: a command's meaning is what its word spells with the operands that the OP uses. -/
theorem unusedOperandsHaveNoEffect : Obligations.UnusedOperandsHaveNoEffect := by
  refine ⟨fun w a b a' b' ha hb => ?_, fun w a b a' b' h => decode_eq_none_of_word_eq (c := ⟨w, a, b⟩) rfl h⟩
  have hdecode : decode ⟨w, a, b⟩ = decode ⟨w, a', b'⟩ := decode_eq_of_used_operands rfl ha hb
  exact ⟨hdecode, fun s => by simp only [runCommand, hdecode]⟩

end Sys2Proof.Machine
end

section
/-! PROOF. The command port (30_encoding.md R70, R71): commands always answer, what they answer does not depend on the port, and
so a host is delivered one response per command, in order. -/
namespace Sys2Proof.Machine

/-! ## Every command answers (60_exceptions.md R204) -/

theorem unlessRefused_answers {refusal : Option Status} {s : State} {go : Result}
    (h : refusal = none → ∃ t, go = .next t) : ∃ t, unlessRefused refusal s go = .next t := by
  cases refusal with
  | none => exact h rfl
  | some st => exact ⟨_, rfl⟩

theorem ite_answers {c : Prop} [Decidable c] {p q : Result} (hp : c → ∃ t, p = .next t) (hq : ¬ c → ∃ t, q = .next t) :
    ∃ t, (if c then p else q) = .next t := by
  by_cases h : c
  · rw [if_pos h]; exact hp h
  · rw [if_neg h]; exact hq h

theorem finish_answers (st : Status) (r : Word) (s : State) : ∃ t, finish st r s = .next t := ⟨_, rfl⟩

theorem raise_answers (st : Status) (s : State) : ∃ t, raise st s = .next t := ⟨_, rfl⟩

/-- An access to allocated words goes on: WCOUNT is at most W_MAX (10_state.md R30). -/
theorem onElement_answers {s : State} (hs : BlockInv s) {i : Nat} (hi : lastWord s.width i < s.wcount.toNat) (st : Status)
    (r : Word) (u : State) : ∃ t, onElement i s (finish st r u) = .next t := by
  rw [onElement_of_lt (Nat.lt_of_lt_of_le hi (wcount_le_wMax hs))]
  exact finish_answers st r u

/-- The element that PUSH appends lies below WCOUNT or in the word that PUSH allocates (41_element_access.md R120). -/
theorem lastWord_length_le_wcount {s : State} (h : ArrayInv s) (hv : s.valid = true) :
    lastWord s.width s.length.toNat ≤ s.wcount.toNat := by
  obtain ⟨hc, -⟩ := h hv
  have := width_le s
  rw [lastWord_eq _ _ (width_pos s) (width_le s), hc]
  omega

theorem execPush_answers {s : State} (hs : BlockInv s) (v : Word) : ∃ t, execPush v s = .next t := by
  refine unlessRefused_answers fun hr => ite_answers (fun _ => raise_answers _ _) fun _ =>
    ite_answers (fun _ => raise_answers _ _) fun hfull => ?_
  obtain ⟨hv, -⟩ := (writeRefusal_eq_none s).1 hr
  have hinside : lastWord s.width s.length.toNat < s.wMax := by
    cases hn : s.needsWord
    · exact Nat.lt_of_lt_of_le (lastWord_lt_of_needsWord_false hn) (wcount_le_wMax hs)
    · have hroom : ¬ s.wMax < s.wcount.toNat + 1 := by simpa [hn] using hfull
      have := lastWord_length_le_wcount hs.1 hv
      omega
  rw [onElement_of_lt hinside]
  exact finish_answers _ _ _

/-- In a state that meets the invariant every command completes: its accesses are to words that exist. -/
theorem exec_answers {s : State} (hs : BlockInv s) (i : Instr) : ∃ t, exec i s = .next t := by
  cases i with
  | new n => exact ite_answers (fun _ => raise_answers _ _) fun _ => finish_answers _ _ _
  | withCapacity n a =>
    exact ite_answers (fun _ => raise_answers _ _) fun _ => ite_answers (fun _ => raise_answers _ _) fun _ => finish_answers _ _ _
  | len | capacity => exact unlessRefused_answers fun _ => finish_answers _ _ _
  | push v => exact execPush_answers hs v
  | get a =>
    exact unlessRefused_answers fun _ => ite_answers (fun _ => finish_answers _ _ _) fun ha =>
      onElement_answers hs (lastWord_lt_wcount hs (BitVec.not_le.1 ha)) _ _ _
  | getUnchecked a =>
    exact unlessRefused_answers fun _ => ite_answers (fun _ => raise_answers _ _) fun ha =>
      onElement_answers hs (by simpa [State.inStorage] using ha) _ _ _
  | set a v =>
    exact unlessRefused_answers fun _ => ite_answers (fun _ => raise_answers _ _) fun ha =>
      ite_answers (fun _ => raise_answers _ _) fun _ =>
        onElement_answers hs (lastWord_lt_wcount hs (BitVec.not_le.1 ha)) _ _ _
  | setUnchecked a v =>
    exact unlessRefused_answers fun _ => ite_answers (fun _ => raise_answers _ _) fun _ =>
      ite_answers (fun _ => raise_answers _ _) fun ha => onElement_answers hs (by simpa [State.inStorage] using ha) _ _ _
  | iter k | intoIter k =>
    exact ite_answers (fun _ => raise_answers _ _) fun _ => unlessRefused_answers fun _ => finish_answers _ _ _
  | iterNext k =>
    exact ite_answers (fun _ => raise_answers _ _) fun _ => ite_answers (fun _ => finish_answers _ _ _) fun hc =>
      onElement_answers hs (lastWord_lt_wcount hs (BitVec.not_le.1 hc)) _ _ _
  | iterDrop k => exact ite_answers (fun _ => raise_answers _ _) fun _ => finish_answers _ _ _
  | rdreg a =>
    simp only [exec, execRdreg]
    cases Reg.ofNumber a with
    | some r => exact finish_answers _ _ _
    | none => exact raise_answers _ _
  | rdword a =>
    refine ite_answers (fun _ => raise_answers _ _) fun ha => ?_
    have hw : a.toNat < s.wMax := Nat.lt_of_lt_of_le (BitVec.not_le.1 ha) (wcount_le_wMax hs)
    rw [onWord, if_pos hw]
    exact finish_answers _ _ _

theorem runCommand_answers {s : State} (hs : BlockInv s) (c : Command) : ∃ t, runCommand c s = .next t := by
  cases hd : decode c with
  | none => rw [runCommand_of_none hd]; exact raise_answers _ _
  | some i => rw [runCommand_of_some hd]; exact exec_answers hs i

/-! ## No command looks at the port -/

/-- The state with another response pending, and with other acts and delivered responses of the host's. -/
def State.withPort (s : State) (rsp : Option Response) (inputs : List Input) (delivered : List Response) : State :=
  { s with rsp := rsp, inputs := inputs, delivered := delivered }

theorem accept_eq_withPort (s : State) (rest : List Input) :
    s.accept rest = s.withPort none rest (s.delivered ++ s.rsp.toList) := accept_eq s rest

/-- The outcome with other acts and delivered responses of the host's in its state. -/
def withHost (inputs : List Input) (delivered : List Response) : Result → Result
  | .next t => .next (t.withPort t.rsp inputs delivered)
  | .fault r => .fault r
  | .refused r => .refused r

section
variable {s : State} {p : Option Response} {ins : List Input} {ds : List Response}

theorem withPort_orField (i : Nat) (v : Word) : (s.withPort p ins ds).orField i v = (s.orField i v).withPort p ins ds := by
  change (if spans s.width i then _ else _) = State.withPort (if spans s.width i then _ else _) p ins ds
  split <;> rfl

theorem withPort_writeField (i : Nat) (v : Word) :
    (s.withPort p ins ds).writeField i v = (s.writeField i v).withPort p ins ds := by
  change (if spans s.width i then _ else _) = State.withPort (if spans s.width i then _ else _) p ins ds
  split <;> rfl

theorem withPort_append (v : Word) : (s.withPort p ins ds).append v = (s.append v).withPort p ins ds := by
  simp only [State.append]
  rw [withPort_orField]
  rfl

/-- A completion overwrites the response. -/
theorem finish_withPort (st : Status) (r : Word) : finish st r (s.withPort p ins ds) = withHost ins ds (finish st r s) := rfl

theorem ite_withHost {c : Prop} [Decidable c] {x y x' y' : Result} (hx : x' = withHost ins ds x)
    (hy : y' = withHost ins ds y) : (if c then x' else y') = withHost ins ds (if c then x else y) := by
  rw [apply_ite (withHost ins ds), hx, hy]

theorem unlessRefused_withPort {refusal : Option Status} {go go' : Result} (h : go' = withHost ins ds go) :
    unlessRefused refusal (s.withPort p ins ds) go' = withHost ins ds (unlessRefused refusal s go) := by
  cases refusal with
  | none => exact h
  | some st => rfl

theorem onWord_withPort {k : Nat} {go go' : Result} (h : go' = withHost ins ds go) :
    onWord k (s.withPort p ins ds) go' = withHost ins ds (onWord k s go) :=
  ite_withHost h rfl

theorem onElement_withPort {i : Nat} {go go' : Result} (h : go' = withHost ins ds go) :
    onElement i (s.withPort p ins ds) go' = withHost ins ds (onElement i s go) :=
  onWord_withPort h

theorem execPush_withPort (v : Word) : execPush v (s.withPort p ins ds) = withHost ins ds (execPush v s) := by
  refine unlessRefused_withPort (ite_withHost rfl (ite_withHost rfl (onElement_withPort ?_)))
  change finish .ok 0 ((if s.needsWord then s.allocate.withPort p ins ds else s.withPort p ins ds).append v) = _
  split
  · rw [withPort_append, finish_withPort]
  · rw [withPort_append, finish_withPort]

/-- What a command writes and answers is the same whatever response is pending and whatever the host's lists hold. -/
theorem exec_withPort (i : Instr) : exec i (s.withPort p ins ds) = withHost ins ds (exec i s) := by
  cases i with
  | new n => exact ite_withHost rfl rfl
  | withCapacity n a => exact ite_withHost rfl (ite_withHost rfl rfl)
  | len | capacity => exact unlessRefused_withPort rfl
  | push v => exact execPush_withPort v
  | get a | getUnchecked a => exact unlessRefused_withPort (ite_withHost rfl (onElement_withPort rfl))
  | set a v | setUnchecked a v =>
    refine unlessRefused_withPort (ite_withHost rfl (ite_withHost rfl (onElement_withPort ?_)))
    rw [withPort_writeField, finish_withPort]
  | iter k | intoIter k => exact ite_withHost rfl (unlessRefused_withPort rfl)
  | iterNext k => exact ite_withHost rfl (ite_withHost rfl (onElement_withPort rfl))
  | iterDrop k =>
    refine ite_withHost rfl ?_
    change finish .ok 0 ((if (s.slot k).state = .own then s.release.withPort p ins ds else s.withPort p ins ds).setSlot k _) = _
    split <;> rfl
  | rdreg a =>
    simp only [exec, execRdreg]
    cases Reg.ofNumber a with
    | some r => cases r <;> rfl
    | none => rfl
  | rdword a => exact ite_withHost rfl (onWord_withPort rfl)

theorem runCommand_withPort (c : Command) : runCommand c (s.withPort p ins ds) = withHost ins ds (runCommand c s) := by
  cases hd : decode c with
  | none => rw [runCommand_of_none hd, runCommand_of_none hd]; rfl
  | some i => rw [runCommand_of_some hd, runCommand_of_some hd]; exact exec_withPort i

end

/-- The responses of a list of commands do not depend on the port either. -/
theorem portResponses_withPort (cs : List Command) (s : State) (p : Option Response) (ins : List Input) (ds : List Response) :
    portResponses cs (s.withPort p ins ds) = portResponses cs s := by
  induction cs generalizing s p with
  | nil => rfl
  | cons c cs ih =>
    simp only [portResponses, runCommand_withPort]
    cases runCommand c s with
    | next t => exact congrArg (Option.map _) (ih t t.rsp)
    | fault r => rfl
    | refused r => rfl

/-! ## Deliveries -/

/-- A command leaves the host's lists alone, and its response is pending. -/
theorem runCommand_port {c : Command} {s t : State} (h : runCommand c s = .next t) :
    t.inputs = s.inputs ∧ t.delivered = s.delivered ∧ t.rsp = some ⟨t.status, t.result⟩ := by
  cases hd : decode c with
  | none =>
    rw [runCommand_of_none hd, raise_eq_next] at h
    subst h
    exact ⟨rfl, rfl, rfl⟩
  | some i =>
    rw [runCommand_of_some hd] at h
    cases completes_of_exec h with
    | unchanged st r _ => exact ⟨rfl, rfl, rfl⟩
    | written u r hw =>
      obtain ⟨-, hin, hdel, -⟩ := hw.spares
      exact ⟨hin, hdel, rfl⟩

theorem run_succ {s t : State} (n : Nat) (h : step s = .next t) :
    Host.Core.run Sys2Proof.core (n + 1) s = Host.Core.run Sys2Proof.core n t := by
  have hcore : Sys2Proof.core.step s = .next t := h
  simp only [Host.Core.run, hcore]

/-- The host's commands, presented one after another from a state with a response pending or none: each acceptance delivers the
response before it, and the last is taken. -/
theorem run_delivers_responses (cs : List Command) (s : State) (hs : BlockInv s)
    (hin : s.inputs = cs.map Input.command ++ [.takeResponse]) :
    ∃ (t : State) (rs : List Response), Host.Core.run Sys2Proof.core (cs.length + 1) s = .next t ∧
      portResponses cs s = some rs ∧ rs.length = cs.length ∧ t.delivered = s.delivered ++ s.rsp.toList ++ rs ∧
      t.rsp = none ∧ t.inputs = [] := by
  induction cs generalizing s with
  | nil =>
    refine ⟨s.accept [], [], run_succ 0 (step_takeResponse hin), rfl, rfl, ?_, ?_, ?_⟩
    all_goals simp [accept_eq]
  | cons c cs ih =>
    rw [List.map_cons, List.cons_append] at hin
    generalize hrest : cs.map Input.command ++ [Input.takeResponse] = rest at hin
    obtain ⟨m, hm⟩ := runCommand_answers (blockInv_accept hs rest) c
    obtain ⟨hmin, hmdel, hmrsp⟩ := runCommand_port hm
    rw [accept_eq] at hmin hmdel
    have hinv := runCommand_keeps_blockInv (blockInv_accept hs rest).regs hm
    obtain ⟨t, rs, hrun, hrs, hlen, hdel, hrsp, hdone⟩ := ih m hinv (hmin.trans hrest.symm)
    refine ⟨t, ⟨m.status, m.result⟩ :: rs, ?_, ?_, ?_, ?_, hrsp, hdone⟩
    · rw [List.length_cons, run_succ _ ((step_command hin).trans hm), hrun]
    · rw [← portResponses_withPort (c :: cs) s none rest (s.delivered ++ s.rsp.toList), ← accept_eq_withPort]
      simp only [portResponses, hm, hrs, Option.map_some]
    · rw [List.length_cons, List.length_cons, hlen]
    · rw [hdel, hmdel, hmrsp, Option.toList_some, List.append_assoc, List.singleton_append]

/-- Settles O12: with no response pending at the start, what has been delivered is what the commands answer. -/
theorem responsesComeInCommandOrder : Obligations.ResponsesComeInCommandOrder := by
  intro cs s hs hrsp hin
  obtain ⟨t, rs, hrun, hrs, hlen, hdel, hdone⟩ := run_delivers_responses cs s hs hin
  refine ⟨t, rs, hrun, hrs, hlen, ?_, hdone⟩
  rw [hdel, hrsp, Option.toList_none, List.append_nil]

/-- Settles O11: one case per act of the host. -/
theorem stepRunsTheDecodedCommand : Obligations.StepRunsTheDecodedCommand := by
  refine ⟨fun s c rest i hin hd => ?_, fun s c rest hin hd => ?_, accept_eq, fun s rest hin => step_takeResponse hin,
    fun s contents rest hin => ⟨_, step_reset hin, rfl, rfl, rfl⟩, fun s hin => step_nil hin⟩
  · rw [step_command hin, runCommand_of_some hd]
  · rw [step_command hin, runCommand_of_none hd]

end Sys2Proof.Machine
end

section
/-! PROOF. Construction and inspection (40_lifecycle.md): what NEW, WITH_CAPACITY, LEN and CAPACITY answer, from the arithmetic of
words reserved and elements held. -/
namespace Sys2Proof.Machine

/-! ## Words for elements, and elements in words -/

/-- The words reserved for `count` elements hold them (R101). -/
theorem le_wordsFor (n count : Nat) : n * count ≤ 32 * wordsFor n count := by
  unfold wordsFor; omega

/-- They are the least number of words that does (R101). -/
theorem wordsFor_lt (n count : Nat) : 32 * wordsFor n count < n * count + 32 := by
  unfold wordsFor; omega

theorem wordsFor_le_iff (n count w : Nat) : wordsFor n count ≤ w ↔ n * count ≤ 32 * w := by
  unfold wordsFor; omega

/-- What CAPACITY computes is no larger than a word, since WRESV is at most W_MAX (R9, R103). -/
theorem capacity_toNat {s : State} (h : s.wresv.toNat ≤ s.wMax) :
    (BitVec.ofNat 32 (s.wresv.toNat * 32 / s.width)).toNat = s.wresv.toNat * 32 / s.width := by
  have hdiv := Nat.div_le_self (s.wresv.toNat * 32) s.width
  have hmax := wMax_lt s
  rw [BitVec.toNat_ofNat, Nat.mod_eq_of_lt (by omega)]

/-- Reserved words that hold `count` elements make CAPACITY's result at least `count`. -/
theorem le_capacity {s : State} {count : Nat} (h : s.wresv.toNat ≤ s.wMax) (hbits : s.width * count ≤ 32 * s.wresv.toNat) :
    count ≤ (BitVec.ofNat 32 (s.wresv.toNat * 32 / s.width)).toNat := by
  rw [capacity_toNat h, Nat.le_div_iff_mul_le (width_pos s), Nat.mul_comm count, Nat.mul_comm _ 32]
  exact hbits

/-! ## The constructed array -/

theorem construct_width (s : State) {n : Nat} (resv : Nat) (h1 : 1 ≤ n) (h2 : n ≤ 32) : (s.construct n resv).width = n :=
  nm1OfWidth_toNat n (by simp [widthOk, h1, h2])

theorem construct_wresv_toNat {s : State} (n : Nat) {resv : Nat} (h : resv ≤ s.wMax) :
    (s.construct n resv).wresv.toNat = resv := by
  have hmax := wMax_lt s
  rw [construct_wresv, BitVec.toNat_ofNat, Nat.mod_eq_of_lt (by omega)]

/-- A constructor that passes its checks answers OK with the new array. -/
theorem answers_construct {i : Instr} {s : State} {n resv : Nat} (h : exec i s = finish .ok 0 (s.construct n resv)) :
    Answers i s .ok 0 ((s.construct n resv).complete .ok 0) :=
  answers_of h rfl rfl rfl rfl rfl

/-! ## The commands, by the state they find -/

theorem exec_new_of_allIdle {s : State} (h : AllIdle s) (n : Nat) :
    exec (.new n) s = finish .ok 0 (s.construct n 0) := by
  simp only [exec, execNew, (anyIter_eq_false s).2 h, Bool.false_eq_true, if_false]

theorem exec_new_of_busy {s : State} (h : s.anyIter = true) (n : Nat) : exec (.new n) s = raise .eBusy s := by
  simp only [exec, execNew, h, if_true]

theorem exec_withCapacity_of_fits {s : State} (h : AllIdle s) {n : Nat} {a : Word} (hfits : wordsFor n a.toNat ≤ s.wMax) :
    exec (.withCapacity n a) s = finish .ok 0 (s.construct n (wordsFor n a.toNat)) := by
  simp only [exec, execWithCapacity, (anyIter_eq_false s).2 h, Bool.false_eq_true, if_false, if_neg hfits.not_gt]

theorem exec_withCapacity_of_too_large {s : State} (h : AllIdle s) {n : Nat} {a : Word}
    (hlarge : s.wMax < wordsFor n a.toNat) : exec (.withCapacity n a) s = raise .eNoMem s := by
  simp only [exec, execWithCapacity, (anyIter_eq_false s).2 h, Bool.false_eq_true, if_false, if_pos hlarge]

theorem exec_withCapacity_of_busy {s : State} (h : s.anyIter = true) (n : Nat) (a : Word) :
    exec (.withCapacity n a) s = raise .eBusy s := by
  simp only [exec, execWithCapacity, h, if_true]

theorem exec_len_of_valid {s : State} (hv : s.valid = true) (hm : NotMoved s) : exec .len s = finish .ok s.length s :=
  unlessRefused_none ((readRefusal_eq_none s).2 ⟨hv, hm⟩)

theorem exec_capacity_of_valid {s : State} (hv : s.valid = true) (hm : NotMoved s) :
    exec .capacity s = finish .ok (BitVec.ofNat 32 (s.wresv.toNat * 32 / s.width)) s :=
  unlessRefused_none ((readRefusal_eq_none s).2 ⟨hv, hm⟩)

theorem notMoved_of_allIdle {s : State} (h : AllIdle s) : NotMoved s := fun k => by
  rw [h k]; decide

/-- A WITH_CAPACITY that completes OK leaves an idle array of its width, with the words reserved that R101 names. -/
theorem withCapacity_ok {n : Nat} {a : Word} {s t : State} (h1 : 1 ≤ n) (h2 : n ≤ 32)
    (h : exec (.withCapacity n a) s = .next t) (hok : t.status = .ok) :
    AllIdle t ∧ t.valid = true ∧ t.width = n ∧ t.wresv.toNat = wordsFor n a.toNat ∧ t.wresv.toNat ≤ t.wMax := by
  obtain ⟨-, rfl⟩ | ⟨-, -, rfl⟩ | ⟨hidle, hfits, rfl⟩ := execWithCapacity_cases h
  · simp at hok
  · simp at hok
  · have hresv := construct_wresv_toNat n hfits
    exact ⟨hidle, rfl, construct_width s (wordsFor n a.toNat) h1 h2, hresv, hresv.trans_le hfits⟩

/-! ## The statements -/

/-- Settles O20: the slots are idle, so NEW constructs. -/
theorem newConstructsAnEmptyArray : Obligations.NewConstructsAnEmptyArray := by
  intro n s h1 h2 hidle
  exact ⟨_, answers_construct (exec_new_of_allIdle hidle n), construct_width s 0 h1 h2, rfl, rfl, rfl, rfl, fun _ => rfl,
    fun _ => rfl⟩

/-- Settles O21: the words needed fit W_MAX exactly when the bits fit the words of W_MAX. -/
theorem withCapacityReservesTheWordsNeeded : Obligations.WithCapacityReservesTheWordsNeeded := by
  intro n a s h1 h2
  refine ⟨fun hidle hbits => ?_, fun hidle hbits => ?_, fun hbusy => ?_⟩
  · have hfits : wordsFor n a.toNat ≤ s.wMax := (wordsFor_le_iff ..).2 hbits
    have hwidth := construct_width s (wordsFor n a.toNat) h1 h2
    have hresv := construct_wresv_toNat n hfits
    refine ⟨_, answers_construct (exec_withCapacity_of_fits hidle hfits), hwidth, rfl, rfl, rfl, ?_, ?_,
      fun _ => rfl, fun _ => rfl⟩
    · rw [complete_wresv, hresv]; exact le_wordsFor n a.toNat
    · rw [complete_wresv, hresv]; exact wordsFor_lt n a.toNat
  · have hlarge : s.wMax < wordsFor n a.toNat :=
      Nat.lt_of_not_le fun hfits => hbits.not_ge ((wordsFor_le_iff ..).1 hfits)
    exact endsWith_of (exec_withCapacity_of_too_large hidle hlarge)
  · have hany : s.anyIter = true := by
      rw [← Bool.not_eq_false, anyIter_eq_false]; exact hbusy
    exact ⟨endsWith_of (exec_withCapacity_of_busy hany n a), endsWith_of (exec_new_of_busy hany n)⟩

/-- Settles O22: with an array that no iterator owns the read checks pass. -/
theorem lenReturnsLength : Obligations.LenReturnsLength :=
  fun _ hv hm => readsValue_of (exec_len_of_valid hv hm)

/-- Settles O23: WRESV is at most W_MAX, so the result register holds the whole quotient. -/
theorem capacityReturnsTheElementsReserved : Obligations.CapacityReturnsTheElementsReserved := by
  intro s hs hv hm
  obtain ⟨-, -, hresv⟩ := hs.1 hv
  refine ⟨_, readsValue_of (exec_capacity_of_valid hv hm), ?_, ?_⟩ <;> rw [capacity_toNat hresv]
  · exact Nat.div_mul_le_self ..
  · exact (Nat.div_lt_iff_lt_mul (width_pos s)).1 (Nat.lt_succ_self _)

/-- Settles O24: the words reserved for `a` elements hold them, so their quotient by the width is at least `a`. -/
theorem capacityAfterWithCapacityIsEnough : Obligations.CapacityAfterWithCapacityIsEnough := by
  intro n a s t u h1 h2 ht hok hu
  obtain ⟨hidle, hvalid, hwidth, hresv, hmax⟩ := withCapacity_ok h1 h2 ht hok
  rw [exec_capacity_of_valid hvalid (notMoved_of_allIdle hidle), finish_eq_next] at hu
  subst hu
  refine ⟨rfl, le_capacity hmax ?_⟩
  rw [hwidth, hresv]
  exact le_wordsFor n a.toNat

end Sys2Proof.Machine
end

section
/-! PROOF. Elements and their storage bits (20_memory.md R52, 41_element_access.md R121 to R124): when an element is allocated, and
what an insertion makes of every element. -/
namespace Sys2Proof.Machine

/-! ## Allocated elements (R121) -/

/-- The range check of R201 as a bound on the value. -/
theorem le_maxOfWidth_iff (w x : Nat) : x ≤ maxOfWidth w ↔ x < 2 ^ w := by
  have := Nat.two_pow_pos w
  unfold maxOfWidth; omega

/-- An element is in the storage when the word of its last bit is allocated. -/
theorem inStorage_iff (s : State) (i : Nat) :
    s.inStorage i = true ↔ (i * s.width + (s.width - 1)) / 32 < s.wcount.toNat := by
  rw [State.inStorage, decide_eq_true_iff, lastWord_eq _ _ (width_pos s) (width_le s)]

/-- Settles O26: the last bit of an element lies in its highest word, so that word is allocated exactly when all are. -/
theorem inStorageMeansEveryWordIsAllocated : Obligations.InStorageMeansEveryWordIsAllocated := by
  refine fun s i => ⟨?_, ?_, fun r => rfl⟩
  · have hpos := width_pos s
    rw [inStorage_iff]
    refine ⟨fun hlast j hj => ?_, fun hall => hall _ (Nat.sub_lt hpos Nat.one_pos)⟩
    exact (Nat.div_le_div_right (by omega)).trans_lt hlast
  · have hspans : spans s.width i = decide (32 - i * s.width % 32 < s.width) := rfl
    rw [State.inStorage, decide_eq_true_iff, lastWord, hspans]
    by_cases h : 32 - i * s.width % 32 < s.width
    · rw [if_pos (decide_eq_true h), if_pos h]; rfl
    · rw [if_neg (by simpa using h), if_neg h]; rfl

/-! ## The bits of an insertion (R122, R123) -/

/-- Settles O28: the bits of `or_field`, with R122's premise as a bound. -/
theorem orFieldOrsIntoTheElementsBits : Obligations.OrFieldOrsIntoTheElementsBits :=
  fun s i _ hv b => storageBit_orField ((le_maxOfWidth_iff s.width _).2 hv) i b

/-- Settles O29: the bits of `write_field`, with R123's premise as a bound. -/
theorem writeFieldReplacesTheElementsBits : Obligations.WriteFieldReplacesTheElementsBits :=
  fun s i _ hv b => storageBit_writeField ((le_maxOfWidth_iff s.width _).2 hv) i b

/-! ## Elements from bits -/

/-- The bits of an element determine it. -/
theorem IsElement.extract_eq {s : State} {i : Nat} {r : Word} (h : IsElement s i r) : s.extract i = r :=
  BitVec.eq_of_getLsbD_eq fun j _ => (isElement_extract s i j).trans (h j).symm

/-- Where the element's bits are those of a value in range, the element is that value. -/
theorem extract_eq_of_bits {s : State} {i : Nat} {v : Word} (hv : v.toNat ≤ maxOfWidth s.width)
    (h : ∀ j, j < s.width → s.storageBit (i * s.width + j) = v.getLsbD j) : s.extract i = v := by
  refine IsElement.extract_eq fun j => ?_
  by_cases hj : j < s.width
  · rw [h j hj, decide_eq_true hj, Bool.true_and]
  · rw [getLsbD_of_le_max s v hv j (Nat.not_lt.1 hj), decide_eq_false hj, Bool.false_and]

/-- Where the element's bits are as before, the element is. -/
theorem extract_congr {s t : State} {i : Nat} (hw : t.width = s.width)
    (h : ∀ j, j < s.width → t.storageBit (i * s.width + j) = s.storageBit (i * s.width + j)) :
    t.extract i = s.extract i := by
  refine IsElement.extract_eq fun j => ?_
  rw [isElement_extract s i j, hw]
  by_cases hj : j < s.width
  · rw [h j hj]
  · rw [decide_eq_false hj, Bool.false_and, Bool.false_and]

/-- No bit belongs to two elements. -/
theorem bit_of_other_element {i j k w : Nat} (h : j ≠ i) (hk : k < w) : ¬ (i * w ≤ j * w + k ∧ j * w + k < i * w + w) := by
  rcases Nat.lt_or_gt_of_ne h with hlt | hgt
  · have := element_end_le w hlt; omega
  · have := element_end_le w hgt; omega

/-- An element written is read back. -/
theorem extract_writeField_self {s : State} {v : Word} (hv : v.toNat ≤ maxOfWidth s.width) (i : Nat) :
    (s.writeField i v).extract i = v := by
  refine extract_eq_of_bits (by rwa [writeField_width]) fun j hj => ?_
  rw [writeField_width] at hj ⊢
  rw [storageBit_writeField hv, if_pos (by omega), Nat.add_sub_cancel_left]

/-- No other element is changed (R141). -/
theorem extract_writeField_of_ne {s : State} {v : Word} (hv : v.toNat ≤ maxOfWidth s.width) {i j : Nat} (h : j ≠ i) :
    (s.writeField i v).extract j = s.extract j :=
  extract_congr (writeField_width s i v) fun k hk => by
    rw [storageBit_writeField hv, if_neg (bit_of_other_element h hk)]

end Sys2Proof.Machine
end

section
/-! PROOF. GET, GET_UNCHECKED, SET and SET_UNCHECKED (41_element_access.md R125 to R131, R141, R142): what each answers, by the state
it finds, and what a SET that completes OK has done. -/
namespace Sys2Proof.Machine

/-! ## Reads, by the state they find -/

theorem exec_get_of_lt {s : State} (hs : BlockInv s) (hv : s.valid = true) (hm : NotMoved s) {a : Word}
    (ha : a.toNat < s.length.toNat) : exec (.get a) s = finish .ok (s.extract a.toNat) s := by
  have hinside := (lastWord_lt_wcount hs ha).trans_le (wcount_le_wMax hs)
  rw [exec, execGet, unlessRefused_none ((readRefusal_eq_none s).2 ⟨hv, hm⟩), if_neg (BitVec.not_le.2 ha),
    onElement_of_lt hinside]

theorem exec_get_of_ge {s : State} (hv : s.valid = true) (hm : NotMoved s) {a : Word}
    (ha : s.length.toNat ≤ a.toNat) : exec (.get a) s = finish .absent 0 s := by
  rw [exec, execGet, unlessRefused_none ((readRefusal_eq_none s).2 ⟨hv, hm⟩), if_pos (show s.length ≤ a from ha)]

theorem exec_getUnchecked_of_inStorage {s : State} (hs : BlockInv s) (hv : s.valid = true) (hm : NotMoved s) {a : Word}
    (ha : s.inStorage a.toNat = true) : exec (.getUnchecked a) s = finish .ok (s.extract a.toNat) s := by
  have hinside := (of_decide_eq_true ha).trans_le (wcount_le_wMax hs)
  simp only [exec, execGetUnchecked, unlessRefused_none ((readRefusal_eq_none s).2 ⟨hv, hm⟩), ha, Bool.not_true,
    Bool.false_eq_true, if_false, onElement_of_lt hinside]

theorem exec_getUnchecked_of_not_inStorage {s : State} (hv : s.valid = true) (hm : NotMoved s) {a : Word}
    (ha : s.inStorage a.toNat = false) : exec (.getUnchecked a) s = raise .eOob s := by
  simp only [exec, execGetUnchecked, unlessRefused_none ((readRefusal_eq_none s).2 ⟨hv, hm⟩), ha, Bool.not_false, if_true]

/-- An element whose last bit lies in no allocated word is not in the storage. -/
theorem inStorage_eq_false {s : State} {i : Nat} (h : s.wcount.toNat ≤ (i * s.width + (s.width - 1)) / 32) :
    s.inStorage i = false := by
  rw [← Bool.not_eq_true, inStorage_iff]; exact h.not_gt

/-- Settles O32: below LENGTH every word of the element is allocated. -/
theorem getReadsElementsOfTheArray : Obligations.GetReadsElementsOfTheArray :=
  fun s a hs hv hm =>
    ⟨fun ha => ⟨_, isElement_extract s a.toNat, readsValue_of (exec_get_of_lt hs hv hm ha)⟩,
      fun ha => endsWith_of (exec_get_of_ge hv hm ha)⟩

/-- Settles O33: the word of the last bit decides whether the element is in the storage. -/
theorem getUncheckedReadsAllocatedBits : Obligations.GetUncheckedReadsAllocatedBits :=
  fun s a hs hv hm =>
    ⟨fun ha => ⟨_, isElement_extract s a.toNat,
        readsValue_of (exec_getUnchecked_of_inStorage hs hv hm ((inStorage_iff s a.toNat).2 ha))⟩,
      fun ha => endsWith_of (exec_getUnchecked_of_not_inStorage hv hm (inStorage_eq_false ha))⟩

/-! ## Writes, by the state they find -/

theorem exec_set_of_good {s : State} (hs : BlockInv s) (hv : s.valid = true) (hi : AllIdle s) {a v : Word}
    (ha : a.toNat < s.length.toNat) (hr : v.toNat < 2 ^ s.width) :
    exec (.set a v) s = finish .ok 0 (s.writeField a.toNat v) := by
  have hinside := (lastWord_lt_wcount hs ha).trans_le (wcount_le_wMax hs)
  simp only [exec, execSet, unlessRefused_none ((writeRefusal_eq_none s).2 ⟨hv, hi⟩), if_neg (BitVec.not_le.2 ha),
    outOfRange_eq_false hr, Bool.false_eq_true, if_false, onElement_of_lt hinside]

theorem exec_set_of_ge {s : State} (hv : s.valid = true) (hi : AllIdle s) {a : Word} (v : Word)
    (ha : s.length.toNat ≤ a.toNat) : exec (.set a v) s = raise .eBounds s := by
  rw [exec, execSet, unlessRefused_none ((writeRefusal_eq_none s).2 ⟨hv, hi⟩), if_pos (show s.length ≤ a from ha)]

theorem exec_set_of_outOfRange {s : State} (hv : s.valid = true) (hi : AllIdle s) {a v : Word}
    (ha : a.toNat < s.length.toNat) (hr : 2 ^ s.width ≤ v.toNat) : exec (.set a v) s = raise .eRange s := by
  rw [exec, execSet, unlessRefused_none ((writeRefusal_eq_none s).2 ⟨hv, hi⟩), if_neg (BitVec.not_le.2 ha),
    if_pos (outOfRange_eq_true hr)]

theorem exec_setUnchecked_of_good {s : State} (hs : BlockInv s) (hv : s.valid = true) (hi : AllIdle s) {a v : Word}
    (ha : s.inStorage a.toNat = true) (hr : v.toNat < 2 ^ s.width) :
    exec (.setUnchecked a v) s = finish .ok 0 (s.writeField a.toNat v) := by
  have hinside := (of_decide_eq_true ha).trans_le (wcount_le_wMax hs)
  simp only [exec, execSetUnchecked, unlessRefused_none ((writeRefusal_eq_none s).2 ⟨hv, hi⟩), outOfRange_eq_false hr, ha,
    Bool.not_true, Bool.false_eq_true, if_false, onElement_of_lt hinside]

theorem exec_setUnchecked_of_outOfRange {s : State} (hv : s.valid = true) (hi : AllIdle s) (a : Word) {v : Word}
    (hr : 2 ^ s.width ≤ v.toNat) : exec (.setUnchecked a v) s = raise .eRange s := by
  rw [exec, execSetUnchecked, unlessRefused_none ((writeRefusal_eq_none s).2 ⟨hv, hi⟩), if_pos (outOfRange_eq_true hr)]

theorem exec_setUnchecked_of_not_inStorage {s : State} (hv : s.valid = true) (hi : AllIdle s) {a v : Word}
    (ha : s.inStorage a.toNat = false) (hr : v.toNat < 2 ^ s.width) : exec (.setUnchecked a v) s = raise .eOob s := by
  simp only [exec, execSetUnchecked, unlessRefused_none ((writeRefusal_eq_none s).2 ⟨hv, hi⟩), outOfRange_eq_false hr, ha,
    Bool.not_false, Bool.false_eq_true, if_false, if_true]

/-- A command that finishes with `write_field` answers OK, and has replaced the element's bits and nothing else. -/
theorem answers_writeField {i : Instr} {s : State} {e : Nat} {v : Word} (hr : v.toNat < 2 ^ s.width)
    (h : exec i s = finish .ok 0 (s.writeField e v)) :
    ∃ t, Answers i s .ok 0 t ∧ SameArrayRegs s t ∧ SameSlots s t ∧
      ∀ b, t.storageBit b =
        if e * s.width ≤ b ∧ b < e * s.width + s.width then v.getLsbD (b - e * s.width) else s.storageBit b := by
  refine ⟨_, answers_of h rfl (by simp) (by simp) (by simp) (by simp), ?_, fun k => by simp, ?_⟩
  · exact ⟨by simp, by simp, by simp, by simp, by simp⟩
  · exact storageBit_writeField ((le_maxOfWidth_iff ..).2 hr) e

/-- Settles O34: SET goes to `write_field` once its bounds and range checks have passed, in this order. -/
theorem setReplacesOneElement : Obligations.SetReplacesOneElement :=
  fun _ _ v hs hv hi =>
    ⟨fun ha hr => answers_writeField hr (exec_set_of_good hs hv hi ha hr),
      fun ha => endsWith_of (exec_set_of_ge hv hi v ha),
      fun ha hr => endsWith_of (exec_set_of_outOfRange hv hi ha hr)⟩

/-- Settles O35: SET_UNCHECKED goes to `write_field` once its range and storage checks have passed, in this order. -/
theorem setUncheckedReplacesAllocatedBits : Obligations.SetUncheckedReplacesAllocatedBits :=
  fun s a _ hs hv hi =>
    ⟨fun ha hr => answers_writeField hr (exec_setUnchecked_of_good hs hv hi ((inStorage_iff s a.toNat).2 ha) hr),
      fun hr => endsWith_of (exec_setUnchecked_of_outOfRange hv hi a hr),
      fun ha hr => endsWith_of (exec_setUnchecked_of_not_inStorage hv hi (inStorage_eq_false ha) hr)⟩

/-! ## A SET or SET_UNCHECKED that completed OK -/

/-- It has written a value in range over an element of the array, or of the storage. -/
theorem set_ok {s t : State} {a v : Word} {i : Instr} (hi : i = .set a v ∨ i = .setUnchecked a v)
    (h : exec i s = .next t) (hok : t.status = .ok) :
    s.valid = true ∧ AllIdle s ∧ v.toNat ≤ maxOfWidth s.width ∧
      (a.toNat < s.length.toNat ∨ s.inStorage a.toNat = true) ∧ t = (s.writeField a.toNat v).complete .ok 0 := by
  obtain rfl | rfl := hi
  · obtain ⟨st, href, rfl⟩ | ⟨-, -, rfl⟩ | ⟨-, -, -, rfl⟩ | ⟨href, ha, hr, -, rfl⟩ := execSet_cases h
    · exact absurd hok (writeRefusal_ne_ok href)
    · simp at hok
    · simp at hok
    · obtain ⟨hv, hidle⟩ := (writeRefusal_eq_none s).1 href
      exact ⟨hv, hidle, hr, .inl ha, rfl⟩
  · obtain ⟨st, href, rfl⟩ | ⟨-, -, rfl⟩ | ⟨-, -, -, rfl⟩ | ⟨href, hr, ha, -, rfl⟩ := execSetUnchecked_cases h
    · exact absurd hok (writeRefusal_ne_ok href)
    · simp at hok
    · simp at hok
    · obtain ⟨hv, hidle⟩ := (writeRefusal_eq_none s).1 href
      exact ⟨hv, hidle, hr, .inr ha, rfl⟩

/-- Settles O36: `write_field` changes no other element. -/
theorem setChangesNoOtherElement : Obligations.SetChangesNoOtherElement := by
  intro s t a v i hi h hok j hj
  obtain ⟨-, -, hr, -, rfl⟩ := set_ok hi h hok
  exact extract_writeField_of_ne hr hj

/-- Settles O37: the element written is in the storage, and both reads find it there. -/
theorem setThenGetReturnsTheValue : Obligations.SetThenGetReturnsTheValue := by
  intro s t a v i hs hi h hok
  have ht := exec_keeps_blockInv hs.regs h
  obtain ⟨hv, hidle, hr, ha, e⟩ := set_ok hi h hok
  have hvalue : t.extract a.toNat = v := by rw [e]; exact extract_writeField_self hr a.toNat
  have hvalid : t.valid = true := by simpa [e] using hv
  have hmoved : NotMoved t := notMoved_of_allIdle fun k => by simpa [e] using hidle k
  have hstored : t.inStorage a.toNat = true := by
    have hs' : s.inStorage a.toNat = true := ha.elim (fun hlt => decide_eq_true (lastWord_lt_wcount hs hlt)) id
    simpa [e, State.inStorage] using hs'
  refine ⟨readsValue_of ?_, fun hlt => readsValue_of ?_⟩
  · rw [exec_getUnchecked_of_inStorage ht hvalid hmoved hstored, hvalue]
  · rw [exec_get_of_lt ht hvalid hmoved hlt, hvalue]

end Sys2Proof.Machine
end

section
/-! PROOF. PUSH (41_element_access.md R120, R140): the room it makes, the element it appends, and the values of a list of PUSHes. -/
namespace Sys2Proof.Machine

/-! ## The room PUSH makes -/

/-- PUSH's state after its allocation, if it needs one (R120). -/
def State.withRoom (s : State) : State := if s.needsWord then s.allocate else s

/-- Making room touches the storage and the two word counts only. -/
theorem withRoom_eq (s : State) :
    s.withRoom = { s with storage := s.withRoom.storage, wcount := s.withRoom.wcount, wresv := s.withRoom.wresv } := by
  unfold State.withRoom
  split <;> rfl

@[simp] theorem withRoom_params (s : State) : s.withRoom.params = s.params := by rw [withRoom_eq]
@[simp] theorem withRoom_nm1 (s : State) : s.withRoom.nm1 = s.nm1 := by rw [withRoom_eq]
@[simp] theorem withRoom_valid (s : State) : s.withRoom.valid = s.valid := by rw [withRoom_eq]
@[simp] theorem withRoom_length (s : State) : s.withRoom.length = s.length := by rw [withRoom_eq]
@[simp] theorem withRoom_errlog (s : State) : s.withRoom.errlog = s.errlog := by rw [withRoom_eq]
@[simp] theorem withRoom_inputs (s : State) : s.withRoom.inputs = s.inputs := by rw [withRoom_eq]
@[simp] theorem withRoom_delivered (s : State) : s.withRoom.delivered = s.delivered := by rw [withRoom_eq]
@[simp] theorem withRoom_width (s : State) : s.withRoom.width = s.width := by rw [withRoom_eq]; rfl
@[simp] theorem withRoom_slot (s : State) (k : SlotId) : s.withRoom.slot k = s.slot k := by rw [withRoom_eq]; rfl

/-- PUSH is out of room exactly when one more element does not fit in W_MAX words. -/
theorem noRoom_iff {s : State} (h : ArrayInv s) (hv : s.valid = true) :
    (s.needsWord && decide (s.wMax < s.wcount.toNat + 1)) = true ↔
      32 * s.wMax < s.length.toNat * s.width + s.width := by
  obtain ⟨hc, hr, hm⟩ := h hv
  have hwidth := width_le s
  rw [Bool.and_eq_true, needsWord_iff hc, decide_eq_true_iff]
  omega

section
variable {s : State} (h : ArrayInv s) (hv : s.valid = true) (hfit : s.length.toNat * s.width + s.width ≤ 32 * s.wMax)
include h hv hfit

/-- The two ways to have room: the element fits below WCOUNT, or in one word more, which exists. -/
theorem withRoom_cases :
    (s.withRoom = s ∧ s.length.toNat * s.width + s.width ≤ 32 * s.wcount.toNat) ∨
    (s.withRoom = s.allocate ∧ 32 * s.wcount.toNat < s.length.toNat * s.width + s.width ∧ s.wcount.toNat + 1 ≤ s.wMax) := by
  obtain ⟨hc, -⟩ := h hv
  unfold State.withRoom
  cases hn : s.needsWord
  · exact .inl ⟨rfl, append_fits hc hn⟩
  · have hfull := (needsWord_iff hc).1 hn
    exact .inr ⟨rfl, hfull, by omega⟩

/-- WCOUNT then counts the words of one element more. -/
theorem withRoom_wcount_toNat : s.withRoom.wcount.toNat = (s.length.toNat * s.width + s.width + 31) / 32 := by
  obtain ⟨hc, -⟩ := h hv
  have hwidth := width_le s
  obtain ⟨e, hbelow⟩ | ⟨e, hfull, hroom⟩ := withRoom_cases h hv hfit
  · rw [e]; omega
  · rw [e, allocate_wcount, allocate_wcount_toNat hroom]; omega

/-- The reservation grows by GROW when WCOUNT exceeds it. -/
theorem withRoom_wresv_toNat :
    s.withRoom.wresv.toNat = if s.wresv.toNat < s.withRoom.wcount.toNat
      then s.grow s.wresv.toNat s.withRoom.wcount.toNat else s.wresv.toNat := by
  obtain ⟨-, hr, -⟩ := h hv
  obtain ⟨e, -⟩ | ⟨e, -, hroom⟩ := withRoom_cases h hv hfit
  · rw [e, if_neg hr.not_gt]
  · rw [e, allocate_wcount, allocate_wcount_toNat hroom, allocate_wresv_toNat hroom]

/-- A new word is zero, and every other word is as before. -/
theorem storageBit_withRoom (b : Nat) :
    s.withRoom.storageBit b =
      if 32 * s.wcount.toNat ≤ b ∧ b < 32 * s.withRoom.wcount.toNat then false else s.storageBit b := by
  obtain ⟨e, -⟩ | ⟨e, -, hroom⟩ := withRoom_cases h hv hfit
  · rw [e, if_neg (by omega)]
  · rw [e, allocate_wcount, allocate_wcount_toNat hroom, State.storageBit, allocate_word]
    by_cases hnew : b / 32 = s.wcount.toNat
    · rw [if_pos hnew, if_pos (by omega)]; exact BitVec.getLsbD_zero
    · rw [if_neg hnew, if_neg (by omega), State.storageBit]

/-- The storage after a PUSH, bit by bit. -/
theorem storageBit_pushed {v : Word} (hr : v.toNat < 2 ^ s.width) (b : Nat) :
    (s.withRoom.append v).storageBit b =
      if s.length.toNat * s.width ≤ b ∧ b < s.length.toNat * s.width + s.width then
        (decide (b < 32 * s.wcount.toNat) && s.storageBit b) || v.getLsbD (b - s.length.toNat * s.width)
      else if 32 * s.wcount.toNat ≤ b ∧ b < 32 * s.withRoom.wcount.toNat then false
      else s.storageBit b := by
  have hv' : v.toNat ≤ maxOfWidth s.withRoom.width := (le_maxOfWidth_iff ..).2 (by rwa [withRoom_width])
  have hbit : (s.withRoom.append v).storageBit b = (s.withRoom.orField s.withRoom.length.toNat v).storageBit b := rfl
  rw [hbit, storageBit_orField hv', withRoom_width, withRoom_length, storageBit_withRoom h hv hfit]
  by_cases hin : s.length.toNat * s.width ≤ b ∧ b < s.length.toNat * s.width + s.width
  · have hwc := withRoom_wcount_toNat h hv hfit
    rw [if_pos hin, decide_eq_true hin, Bool.true_and]
    by_cases hold : b < 32 * s.wcount.toNat
    · rw [if_neg (by omega), decide_eq_true hold, Bool.true_and]
    · rw [if_pos (by omega), decide_eq_false hold, Bool.false_and]
  · rw [if_neg hin, decide_eq_false hin, Bool.false_and, Bool.or_false]

/-! ## PUSH, by the state it finds -/

theorem exec_push_of_fits (hi : AllIdle s) {v : Word} (hr : v.toNat < 2 ^ s.width) :
    exec (.push v) s = finish .ok 0 (s.withRoom.append v) := by
  have hroom := (noRoom_iff h hv).not.2 hfit.not_gt
  have hinside : lastWord s.width s.length.toNat < s.wMax := by
    have := width_pos s
    rw [lastWord_eq _ _ (width_pos s) (width_le s)]
    omega
  rw [exec, execPush, unlessRefused_none ((writeRefusal_eq_none s).2 ⟨hv, hi⟩),
    if_neg (by rw [outOfRange_eq_false hr]; decide), if_neg hroom, onElement_of_lt hinside, State.withRoom]

end

theorem exec_push_of_full {s : State} (h : ArrayInv s) (hv : s.valid = true)
    (hfull : 32 * s.wMax < s.length.toNat * s.width + s.width) (hi : AllIdle s) {v : Word} (hr : v.toNat < 2 ^ s.width) :
    exec (.push v) s = raise .eNoMem s := by
  rw [exec, execPush, unlessRefused_none ((writeRefusal_eq_none s).2 ⟨hv, hi⟩),
    if_neg (by rw [outOfRange_eq_false hr]; decide), if_pos ((noRoom_iff h hv).2 hfull)]

/-- Settles O30: PUSH makes room and appends, or has no room. -/
theorem pushAppendsOneElement : Obligations.PushAppendsOneElement := by
  intro s v hs hv hi hr
  obtain ⟨ha, -⟩ := hs
  refine ⟨fun hfit => ?_, fun hfull => endsWith_of (exec_push_of_full ha hv hfull hi hr)⟩
  refine ⟨_, answers_of (exec_push_of_fits ha hv hfit hi hr) rfl (by simp) (by simp) (by simp) (by simp), by simp, by simp,
    ?_, ?_, ?_, fun k => by simp, ?_⟩
  · rw [complete_length, append_length, withRoom_length]
    exact length_add_one_toNat hfit le_rfl
  · rw [complete_wcount, append_wcount]
    exact withRoom_wcount_toNat ha hv hfit
  · rw [complete_wresv, append_wresv, complete_wcount, append_wcount]
    exact withRoom_wresv_toNat ha hv hfit
  · intro b
    rw [complete_storageBit, complete_wcount, append_wcount]
    exact storageBit_pushed ha hv hfit hr b

/-! ## A PUSH that completed OK -/

/-- It has found room for its value and appended it. -/
theorem push_ok {s t : State} {v : Word} (hs : BlockInv s) (h : exec (.push v) s = .next t) (hok : t.status = .ok) :
    s.valid = true ∧ AllIdle s ∧ v.toNat < 2 ^ s.width ∧ s.length.toNat * s.width + s.width ≤ 32 * s.wMax ∧
      t = (s.withRoom.append v).complete .ok 0 := by
  have ⟨ha, _⟩ := hs
  have hwrites : s.valid = true ∧ AllIdle s ∧ v.toNat ≤ maxOfWidth s.width := by
    cases completes_of_exec h with
    | unchanged st r hreads => cases hreads hok
    | written u r hw =>
      cases hw with
      | push v valid idle range | pushAllocating v valid idle range => exact ⟨valid, idle, range⟩
  obtain ⟨hv, hi, hr⟩ := hwrites
  rw [le_maxOfWidth_iff] at hr
  have hfit : s.length.toNat * s.width + s.width ≤ 32 * s.wMax := by
    by_contra hfull
    rw [exec_push_of_full ha hv (Nat.not_le.1 hfull) hi hr, raise_eq_next] at h
    simp [h] at hok
  rw [exec_push_of_fits ha hv hfit hi hr, finish_eq_next] at h
  exact ⟨hv, hi, hr, hfit, h⟩

/-- Settles O31: the element's bits were slack, and so zero, or are in a new word; earlier elements lie below WCOUNT. -/
theorem pushOntoCleanSlackStoresTheValue : Obligations.PushOntoCleanSlackStoresTheValue := by
  intro s t v hs hz h hok
  have hslack : SlackZero t := slackBitsStayZero _ s t hs hz (by simp) h
  have ⟨ha, _⟩ := hs
  obtain ⟨hv, -, hr, hfit, rfl⟩ := push_ok hs h hok
  obtain ⟨hc, -⟩ := ha hv
  have hwidth : (s.withRoom.append v).width = s.width := by simp
  refine ⟨extract_eq_of_bits (by simpa [le_maxOfWidth_iff] using hr) fun j hj => ?_, fun i hi => ?_, hslack⟩
  · rw [complete_width, hwidth] at hj ⊢
    rw [complete_storageBit, storageBit_pushed ha hv hfit hr, if_pos (by omega), Nat.add_sub_cancel_left]
    by_cases hold : s.length.toNat * s.width + j < 32 * s.wcount.toNat
    · rw [hz _ (by omega) hold, Bool.and_false, Bool.false_or]
    · rw [decide_eq_false hold, Bool.false_and, Bool.false_or]
  · refine extract_congr hwidth fun j hj => ?_
    have := element_end_le s.width hi
    rw [complete_storageBit, storageBit_pushed ha hv hfit hr, if_neg (by omega), if_neg (by omega)]

/-! ## Values pushed after a constructor (R140) -/

/-- The array holds exactly the values, no iterator is open, and the slack is clean. -/
structure HoldsValues (s : State) (vs : List Word) : Prop where
  inv      : BlockInv s
  slack    : SlackZero s
  valid    : s.valid = true
  idle     : AllIdle s
  length   : s.length.toNat = vs.length
  elements : ∀ (k : Nat) (h : k < vs.length), s.extract k = vs[k]

/-- A constructor that completes OK leaves an array without values. -/
theorem holdsValues_of_constructor {i : Instr} {s t : State} (hs : BlockInv s)
    (hi : ∃ n, i = .new n ∨ ∃ a, i = .withCapacity n a) (h : exec i s = .next t) (hok : t.status = .ok) :
    HoldsValues t [] := by
  have ht := exec_keeps_blockInv hs.regs h
  obtain ⟨n, rfl | ⟨a, rfl⟩⟩ := hi
  · obtain ⟨-, rfl⟩ | ⟨hidle, rfl⟩ := execNew_cases h
    · simp at hok
    · exact ⟨ht, slackZero_of_wcount_eq_zero rfl, rfl, hidle, rfl, nofun⟩
  · obtain ⟨-, rfl⟩ | ⟨-, -, rfl⟩ | ⟨hidle, -, rfl⟩ := execWithCapacity_cases h
    · simp at hok
    · simp at hok
    · exact ⟨ht, slackZero_of_wcount_eq_zero rfl, rfl, hidle, rfl, nofun⟩

/-- A PUSH that completes OK adds its value at the end. -/
theorem HoldsValues.push {s t : State} {vs : List Word} {v : Word} (hs : HoldsValues s vs)
    (h : exec (.push v) s = .next t) (hok : t.status = .ok) : HoldsValues t (vs ++ [v]) := by
  have ht := exec_keeps_blockInv hs.inv.regs h
  obtain ⟨hnew, hold, hslack⟩ := pushOntoCleanSlackStoresTheValue s t v hs.inv hs.slack h hok
  obtain ⟨-, -, -, hfit, rfl⟩ := push_ok hs.inv h hok
  refine ⟨ht, hslack, by simpa using hs.valid, fun k => by simpa using hs.idle k, ?_, fun k hk => ?_⟩
  · rw [complete_length, append_length, withRoom_length, length_add_one_toNat hfit le_rfl, hs.length,
      List.length_append, List.length_singleton]
  · rw [List.length_append, List.length_singleton] at hk
    rcases Nat.lt_succ_iff_lt_or_eq.1 hk with hlt | rfl
    · rw [List.getElem_append_left hlt, hold k (hs.length ▸ hlt), hs.elements k hlt]
    · rw [List.getElem_concat_length rfl, ← hs.length, hnew]

/-- PUSHes that all complete OK add their values in order. -/
theorem HoldsValues.pushes {t : State} (ws : List Word) {s : State} {vs : List Word} (hs : HoldsValues s vs)
    (h : PushesOk ws s t) : HoldsValues t (vs ++ ws) := by
  induction ws generalizing s vs with
  | nil =>
    obtain rfl : s = t := h
    rwa [List.append_nil]
  | cons w ws ih =>
    obtain ⟨m, hm, hok, hrest⟩ := h
    rw [List.append_cons]
    exact ih (hs.push hm hok) hrest

/-- GET reads the values back. -/
theorem HoldsValues.get {s : State} {vs : List Word} (hs : HoldsValues s vs) (k : Nat) (h : k < vs.length) :
    ReadsValue (.get (BitVec.ofNat 32 k)) s vs[k] := by
  have hk : (BitVec.ofNat 32 k).toNat = k := by
    have := s.length.isLt
    have := hs.length
    rw [BitVec.toNat_ofNat, Nat.mod_eq_of_lt (by omega)]
  have hread := exec_get_of_lt hs.inv hs.valid (notMoved_of_allIdle hs.idle) (a := BitVec.ofNat 32 k)
    (by rw [hk, hs.length]; exact h)
  rw [hk, hs.elements k h] at hread
  exact readsValue_of hread

/-- Settles O38: from a constructor's empty array on, the array holds the values pushed so far. -/
theorem pushedValuesComeBack : Obligations.PushedValuesComeBack := by
  intro i vs s₀ s t hs₀ _ hi h hok hpush
  have ht : HoldsValues t vs := (holdsValues_of_constructor hs₀ hi h hok).pushes vs hpush
  exact ⟨ht.get, t.length, readsValue_of (exec_len_of_valid ht.valid (notMoved_of_allIdle ht.idle)), ht.length⟩

end Sys2Proof.Machine
end

section
/-! PROOF. Iteration (42_iteration.md): what ITER, INTO_ITER, ITER_NEXT and ITER_DROP answer, by the state they find; the released
array; and the elements that the ITER_NEXTs of a slot yield in order. -/
namespace Sys2Proof.Machine

/-! ## The commands, by the state they find -/

theorem exec_iter_of_idle {s : State} {k : SlotId} (hv : s.valid = true) (hm : NotMoved s)
    (hk : (s.slot k).state = .idle) : exec (.iter k) s = finish .ok 0 (s.setSlot k ⟨.borrow, 0⟩) := by
  rw [exec, execIter, if_neg (not_not.2 hk), unlessRefused_none ((readRefusal_eq_none s).2 ⟨hv, hm⟩)]

theorem exec_intoIter_of_allIdle {s : State} (hv : s.valid = true) (hi : AllIdle s) (k : SlotId) :
    exec (.intoIter k) s = finish .ok 0 (s.setSlot k ⟨.own, 0⟩) := by
  rw [exec, execIntoIter, if_neg (not_not.2 (hi k)), unlessRefused_none ((writeRefusal_eq_none s).2 ⟨hv, hi⟩)]

theorem exec_iterNext_of_idle {s : State} {k : SlotId} (hk : (s.slot k).state = .idle) :
    exec (.iterNext k) s = raise .eSlot s := by
  rw [exec, execIterNext, if_pos hk]

theorem exec_iterNext_of_lt {s : State} (hs : BlockInv s) {k : SlotId} (hk : (s.slot k).state ≠ .idle)
    (hc : (s.slot k).cur.toNat < s.length.toNat) :
    exec (.iterNext k) s = finish .ok (s.extract (s.slot k).cur.toNat)
      (s.setSlot k ⟨(s.slot k).state, (s.slot k).cur + 1⟩) := by
  have hinside := (lastWord_lt_wcount hs hc).trans_le (wcount_le_wMax hs)
  rw [exec, execIterNext, if_neg hk, if_neg (BitVec.not_le.2 hc), onElement_of_lt hinside]

theorem exec_iterNext_of_ge {s : State} {k : SlotId} (hk : (s.slot k).state ≠ .idle)
    (hc : s.length.toNat ≤ (s.slot k).cur.toNat) : exec (.iterNext k) s = finish .absent 0 s := by
  rw [exec, execIterNext, if_neg hk, if_pos (show s.length ≤ (s.slot k).cur from hc)]

theorem exec_iterDrop_of_idle {s : State} {k : SlotId} (hk : (s.slot k).state = .idle) :
    exec (.iterDrop k) s = raise .eSlot s := by
  rw [exec, execIterDrop, if_pos hk]

theorem exec_iterDrop_of_borrow {s : State} {k : SlotId} (hk : (s.slot k).state = .borrow) :
    exec (.iterDrop k) s = finish .ok 0 (s.setSlot k Slot.closed) := by
  simp [exec, execIterDrop, hk]

theorem exec_iterDrop_of_own {s : State} {k : SlotId} (hk : (s.slot k).state = .own) :
    exec (.iterDrop k) s = finish .ok 0 (s.release.setSlot k Slot.closed) := by
  simp [exec, execIterDrop, hk]

/-! ## One slot replaced (R160 to R163) -/

/-- A command that finishes OK after replacing slot `k` leaves the other slots, the registers and the words as they were. -/
theorem answers_setSlot {i : Instr} {s : State} {k : SlotId} {v : Slot} {r : Word}
    (h : exec i s = finish .ok r (s.setSlot k v)) :
    ∃ t, Answers i s .ok r t ∧ t.slot k = v ∧ (∀ j, j ≠ k → t.slot j = s.slot j) ∧
      SameArrayRegs s t ∧ SameWords s t :=
  ⟨_, answers_of h rfl rfl rfl rfl rfl, slot_setSlot_self s k v, fun _ => slot_setSlot_of_ne s v,
    ⟨rfl, rfl, rfl, rfl, rfl⟩, fun _ => rfl⟩

/-- Settles O40: ITER's checks pass, and it replaces its slot. -/
theorem iterOpensABorrowingIterator : Obligations.IterOpensABorrowingIterator :=
  fun _ _ hv hm hk => answers_setSlot (exec_iter_of_idle hv hm hk)

/-- Settles O41: INTO_ITER's checks pass, and it replaces its slot. -/
theorem intoIterMovesTheArray : Obligations.IntoIterMovesTheArray :=
  fun _ k hv hi => answers_setSlot (exec_intoIter_of_allIdle hv hi k)

/-- Settles O42: an element below LENGTH is in the storage, and a cursor below LENGTH does not overflow. -/
theorem iterNextYieldsTheElementAtItsCursor : Obligations.IterNextYieldsTheElementAtItsCursor := by
  intro s k hs
  refine ⟨fun hk hc => ?_, fun hk hc => endsWith_of (exec_iterNext_of_ge hk hc),
    fun hk => endsWith_of (exec_iterNext_of_idle hk)⟩
  obtain ⟨t, hans, hslot, hother, hregs, hwords⟩ := answers_setSlot (exec_iterNext_of_lt hs hk hc)
  refine ⟨t, _, isElement_extract s _, hans, by rw [hslot], ?_, hother, hregs, hwords⟩
  rw [hslot]
  exact toNat_add_one (Nat.lt_of_le_of_lt hc s.length.isLt)

/-- Settles O43: by what the slot holds. -/
theorem iterDropClosesItsIterator : Obligations.IterDropClosesItsIterator := by
  refine fun s k => ⟨fun hk => ?_, fun hk => endsWith_of (exec_iterDrop_of_idle hk)⟩
  cases hst : (s.slot k).state with
  | idle => exact absurd hst hk
  | borrow =>
    obtain ⟨t, hans, hslot, hother, hregs, hwords⟩ := answers_setSlot (exec_iterDrop_of_borrow hst)
    exact ⟨t, hans, hslot, hother, hwords, fun _ => hregs, nofun⟩
  | own =>
    exact ⟨_, answers_of (exec_iterDrop_of_own hst) rfl rfl rfl rfl rfl, slot_setSlot_self ..,
      fun _ => slot_setSlot_of_ne s.release _, fun _ => rfl, nofun, fun _ => ⟨rfl, rfl, rfl, rfl, rfl⟩⟩

/-! ## The released array (R165) -/

/-- A check that refuses raises its status. -/
theorem unlessRefused_some {refusal : Option Status} {st : Status} {s : State} {go : Result} (h : refusal = some st) :
    unlessRefused refusal s go = raise st s := by subst h; rfl

/-- Without an array and with every slot idle, E_NOARRAY is the first check that fails. -/
theorem endsWith_eNoArray {s : State} (hv : s.valid = false) (hi : AllIdle s) {i : Instr} (h : needsArray i = true) :
    EndsWith i s .eNoArray := by
  have hread : readRefusal s = some .eNoArray := (readRefusal_eq_some ..).2 (.inl ⟨hv, rfl⟩)
  have hwrite : writeRefusal s = some .eNoArray := (writeRefusal_eq_some ..).2 (.inl ⟨hv, rfl⟩)
  refine endsWith_of ?_
  cases i with
  | len | capacity | get _ | getUnchecked _ => exact unlessRefused_some hread
  | push _ | set _ _ | setUnchecked _ _ => exact unlessRefused_some hwrite
  | iter k => exact (if_neg (not_not.2 (hi k))).trans (unlessRefused_some hread)
  | intoIter k => exact (if_neg (not_not.2 (hi k))).trans (unlessRefused_some hwrite)
  | _ => cases h

theorem exec_rdword_of_ge {s : State} {a : Word} (h : s.wcount ≤ a) : exec (.rdword a) s = raise .eOob s := by
  rw [exec, execRdword, if_pos h]

/-- Settles O46: the owner was the only iterator, so its drop leaves no array, no open slot and no allocated word. -/
theorem releasedArraysAreUnreachable : Obligations.ReleasedArraysAreUnreachable := by
  intro s t k ⟨_, _, hslots, _⟩ hown h
  rw [exec_iterDrop_of_own hown, finish_eq_next] at h
  subst h
  have hidle : AllIdle ((s.release.setSlot k Slot.closed).complete .ok 0) := fun j => by
    rw [complete_slot, dropOwner_slot hslots hown j]; rfl
  exact ⟨rfl, rfl, rfl, hidle, fun i => endsWith_eNoArray rfl hidle,
    fun a => endsWith_of (exec_rdword_of_ge (Nat.zero_le _))⟩

/-! ## The elements in order (R164) -/

/-- The response to a read of element `n` of an array: the element, or ABSENT from LENGTH on (41_element_access.md R125). -/
def State.elementResponse (s : State) (n : Nat) : Response :=
  if n < s.length.toNat then ⟨.ok, s.extract n⟩ else ⟨.absent, 0⟩

/-- GET of an array that no iterator owns gives this response. -/
theorem exec_get_response {s : State} (hs : BlockInv s) (hv : s.valid = true) (hm : NotMoved s) (a : Word) :
    ∃ g, exec (.get a) s = .next g ∧ s.elementResponse a.toNat = ⟨g.status, g.result⟩ := by
  unfold State.elementResponse
  split
  · next h => exact ⟨_, exec_get_of_lt hs hv hm h, rfl⟩
  · next h => exact ⟨_, exec_get_of_ge hv hm (Nat.not_lt.1 h), rfl⟩

/-- Slot `k` was opened on the array of `s₀` and has answered `n` ITER_NEXTs by state `s`: the array is still that of `s₀`,
and the cursor has counted the ITER_NEXTs up to LENGTH. -/
structure Iterating (k : SlotId) (s₀ : State) (n : Nat) (s : State) : Prop where
  inv      : BlockInv s
  opened   : (s.slot k).state ≠ .idle
  length   : s.length = s₀.length
  elements : ∀ e, e < s₀.length.toNat → s.extract e = s₀.extract e
  cursor   : (s.slot k).cur.toNat = min n s₀.length.toNat

/-- An ITER or INTO_ITER that completes OK opens its slot at cursor 0, on an array that no iterator owned. -/
theorem open_ok {k : SlotId} {s₀ s : State} (h : exec (.iter k) s₀ = .next s ∨ exec (.intoIter k) s₀ = .next s)
    (hok : s.status = .ok) :
    s₀.valid = true ∧ NotMoved s₀ ∧ ∃ st, st ≠ .idle ∧ s = (s₀.setSlot k ⟨st, 0⟩).complete .ok 0 := by
  obtain h | h := h
  · obtain ⟨-, rfl⟩ | ⟨-, st, href, rfl⟩ | ⟨-, href, rfl⟩ := execIter_cases h
    · simp at hok
    · exact absurd hok (readRefusal_ne_ok href)
    · obtain ⟨hv, hm⟩ := (readRefusal_eq_none s₀).1 href
      exact ⟨hv, hm, .borrow, by decide, rfl⟩
  · obtain ⟨-, rfl⟩ | ⟨-, st, href, rfl⟩ | ⟨-, href, rfl⟩ := execIntoIter_cases h
    · simp at hok
    · exact absurd hok (writeRefusal_ne_ok href)
    · obtain ⟨hv, hi⟩ := (writeRefusal_eq_none s₀).1 href
      exact ⟨hv, notMoved_of_allIdle hi, .own, by decide, rfl⟩

/-- The iteration starts there, with nothing yielded. -/
theorem iterating_of_open {k : SlotId} {s₀ s : State} (hs : BlockInv s₀)
    (h : exec (.iter k) s₀ = .next s ∨ exec (.intoIter k) s₀ = .next s) (hok : s.status = .ok) : Iterating k s₀ 0 s := by
  have hinv : BlockInv s := h.elim (exec_keeps_blockInv hs.regs) (exec_keeps_blockInv hs.regs)
  obtain ⟨-, -, st, hst, rfl⟩ := open_ok h hok
  have hslot : ((s₀.setSlot k ⟨st, 0⟩).complete .ok 0).slot k = ⟨st, 0⟩ := slot_setSlot_self s₀ k _
  exact ⟨hinv, by rwa [hslot], rfl, fun _ _ => rfl, by rw [hslot, Nat.zero_min]; rfl⟩

section
variable {k : SlotId} {s₀ s t : State} {n : Nat} (hs : Iterating k s₀ n s)
include hs

/-- A command that is neither the slot's ITER_NEXT nor its ITER_DROP leaves the iteration where it is (10_state.md R39). -/
theorem Iterating.other {i : Instr} (hdrop : i ≠ .iterDrop k) (hnext : i ≠ .iterNext k) (h : exec i s = .next t) :
    Iterating k s₀ n t := by
  obtain ⟨hlen, -, hstate, helem, hslot⟩ := openIteratorsFixTheArray i s t k hs.inv hs.opened hdrop h
  refine ⟨exec_keeps_blockInv hs.inv.regs h, hstate ▸ hs.opened, hlen.trans hs.length, fun e he => ?_, ?_⟩
  · rw [helem e (hs.length ▸ he), hs.elements e he]
  · rw [hslot hnext, hs.cursor]

/-- The slot's ITER_NEXT answers as a read of the element it has come to, and counts. -/
theorem Iterating.next (h : exec (.iterNext k) s = .next t) :
    Iterating k s₀ (n + 1) t ∧ s₀.elementResponse n = ⟨t.status, t.result⟩ := by
  have hinv := exec_keeps_blockInv hs.inv.regs h
  have hlen := hs.length
  have hcur := hs.cursor
  by_cases hn : n < s₀.length.toNat
  · have hc : (s.slot k).cur.toNat = n := hcur.trans (Nat.min_eq_left hn.le)
    rw [exec_iterNext_of_lt hs.inv hs.opened (by rwa [hc, hlen]), finish_eq_next, hc, hs.elements n hn] at h
    have hslot : t.slot k = ⟨(s.slot k).state, (s.slot k).cur + 1⟩ := by rw [h]; exact slot_setSlot_self s k _
    refine ⟨⟨hinv, by rw [hslot]; exact hs.opened, by rw [h]; exact hlen, by rw [h]; exact hs.elements, ?_⟩, ?_⟩
    · rw [hslot, toNat_add_one (by have := s₀.length.isLt; omega), hc, Nat.min_eq_left hn]
    · rw [State.elementResponse, if_pos hn, h]; rfl
  · have hc : (s.slot k).cur.toNat = s₀.length.toNat := hcur.trans (Nat.min_eq_right (Nat.not_lt.1 hn))
    rw [exec_iterNext_of_ge hs.opened (by rw [hc, hlen]), finish_eq_next] at h
    subst h
    refine ⟨⟨hinv, hs.opened, hlen, hs.elements, ?_⟩, ?_⟩
    · rw [complete_slot, hc, Nat.min_eq_right (by omega)]
    · rw [State.elementResponse, if_neg hn]; rfl

end

/-- The responses of a list of commands begin with that of its first command. -/
theorem responsesOf_cons {i : Instr} {is : List Instr} {s : State} {rs : List Response}
    (h : responsesOf (i :: is) s = some rs) :
    ∃ t rs', exec i s = .next t ∧ responsesOf is t = some rs' ∧ rs = ⟨t.status, t.result⟩ :: rs' := by
  unfold responsesOf at h
  split at h
  · next t ht =>
    obtain ⟨rs', hrs', rfl⟩ := Option.map_eq_some_iff.1 h
    exact ⟨t, rs', ht, hrs', rfl⟩
  · cases h

/-- The ITER_NEXTs of the slot among any commands but its ITER_DROP answer as reads of the elements from number `n` on. -/
theorem Iterating.responses {k : SlotId} {s₀ : State} (is : List Instr) {n m : Nat} {s : State} {rs : List Response}
    {q : Instr × Response} (hs : Iterating k s₀ n s) (hdrop : ∀ i ∈ is, i ≠ .iterDrop k)
    (hrs : responsesOf is s = some rs)
    (hq : ((is.zip rs).filter fun p => p.1 == Instr.iterNext k)[m]? = some q) : q.2 = s₀.elementResponse (n + m) := by
  induction is generalizing n m s rs with
  | nil => simp at hq
  | cons i is ih =>
    obtain ⟨hi, his⟩ := List.forall_mem_cons.1 hdrop
    obtain ⟨t, rs', ht, hrs', rfl⟩ := responsesOf_cons hrs
    rw [List.zip_cons_cons] at hq
    by_cases hnext : i = .iterNext k
    · obtain ⟨hs', hresp⟩ := hs.next (hnext ▸ ht)
      rw [List.filter_cons_of_pos (by simp [hnext])] at hq
      cases m with
      | zero =>
        obtain rfl := Option.some.inj hq
        exact hresp.symm
      | succ m =>
        rw [Nat.add_comm m, ← Nat.add_assoc]
        exact ih hs' his hrs' hq
    · rw [List.filter_cons_of_neg (by simpa using hnext)] at hq
      exact ih (hs.other hi hnext ht) his hrs' hq

/-- Settles O45: the iteration starts at element 0, and a GET before the opening answers as a read of the same element. -/
theorem iterationYieldsTheElementsInOrder : Obligations.IterationYieldsTheElementsInOrder := by
  intro k s₀ s is rs hs₀ hopen hok hdrop hrs m q hm hq
  obtain ⟨hv, hmoved, -⟩ := open_ok hopen hok
  obtain ⟨g, hg, hresp⟩ := exec_get_response hs₀ hv hmoved (BitVec.ofNat 32 m)
  refine ⟨g, hg, ?_⟩
  rw [(iterating_of_open hs₀ hopen hok).responses is hdrop hrs hq, ← hresp, BitVec.toNat_ofNat, Nat.mod_eq_of_lt hm,
    Nat.zero_add]

end Sys2Proof.Machine
end

section
/-! PROOF. Observation (43_observation.md): RDREG by register number, and RDWORD on both sides of WCOUNT. -/
namespace Sys2Proof.Machine

/-! ## RDREG (R180) -/

/-- The numbers between RESULT and SLOT[0].STATE, and those above SLOT[3].CUR, are reserved. -/
theorem Reg.ofNumber_eq_none {a : Word} (h : (0x08 ≤ a.toNat ∧ a.toNat ≤ 0x0F) ∨ 0x18 ≤ a.toNat) :
    Reg.ofNumber a = none := by
  unfold Reg.ofNumber
  split
  case h_17 => rfl
  all_goals omega

theorem Reg.ofNumber_slotState (k : SlotId) : Reg.ofNumber (BitVec.ofNat 32 (0x10 + k.val)) = some (.slotState k) := by
  fin_cases k <;> rfl

theorem Reg.ofNumber_slotCur (k : SlotId) : Reg.ofNumber (BitVec.ofNat 32 (0x14 + k.val)) = some (.slotCur k) := by
  fin_cases k <;> rfl

/-- The number read as MAXV (10_state.md R23). -/
theorem maxvWord_eq (s : State) : s.maxvWord = if s.valid then BitVec.ofNat 32 (2 ^ s.width - 1) else 0 := by
  rw [State.maxvWord, ← maxWord_toNat, BitVec.ofNat_toNat, BitVec.setWidth_eq]

theorem exec_rdreg_of_reserved {s : State} {a : Word} (h : Reg.ofNumber a = none) :
    exec (.rdreg a) s = raise .eIllegal s := by
  simp only [exec, execRdreg, h]

/-- Settles O47: each number of the table names its register, and the others name none. -/
theorem rdregReadsTheNumberedRegister : Obligations.RdregReadsTheNumberedRegister := by
  intro s
  have read {a : Word} (r : Reg) (h : Reg.ofNumber a = some r) : ReadsValue (.rdreg a) s (s.readReg r) :=
    readsValue_rdreg s h
  refine ⟨read .cfg rfl, read .length rfl, read .wcount rfl, read .wresv rfl, ?_, ?_, read .errlog rfl,
    read .result rfl, fun k => ⟨?_, read (.slotCur k) (Reg.ofNumber_slotCur k)⟩,
    fun a ha => endsWith_of (exec_rdreg_of_reserved (Reg.ofNumber_eq_none ha))⟩
  · rw [← maxvWord_eq]
    exact read .maxv rfl
  · rw [BitVec.ofNat_toNat]
    exact read .status rfl
  · have hread := read (.slotState k) (Reg.ofNumber_slotState k)
    cases hst : (s.slot k).state <;> rw [State.readReg, hst] at hread <;> exact hread

/-! ## RDWORD (R181) -/

theorem exec_rdword_of_lt {s : State} {a : Word} (h : a.toNat < s.wcount.toNat) (hw : a.toNat < s.wMax) :
    exec (.rdword a) s = finish .ok (s.word a.toNat) s := by
  rw [exec, execRdword, if_neg (BitVec.not_le.2 h), onWord, if_pos hw]

/-- Settles O48: an allocated word exists, since WCOUNT is at most W_MAX. -/
theorem rdwordReadsAllocatedWords : Obligations.RdwordReadsAllocatedWords :=
  fun _ _ => ⟨fun hmax ha => readsValue_of (exec_rdword_of_lt ha (ha.trans_le hmax)),
    fun ha => endsWith_of (exec_rdword_of_ge ha)⟩

end Sys2Proof.Machine
end

section
/-! PROOF. Runs and completions (60_exceptions.md R203, R204): a run never stops, and a command that errs writes the condition
state only. -/
namespace Sys2Proof.Machine

/-! ## Runs -/

/-- From a state that meets the invariant every act of the host is answered with a next state. -/
theorem step_answers {s : State} (hs : BlockInv s) : ∃ t, step s = .next t := by
  cases hin : s.inputs with
  | nil => exact ⟨s, step_nil hin⟩
  | cons act rest =>
    cases act with
    | command c => rw [step_command hin]; exact runCommand_answers (blockInv_accept hs rest) c
    | takeResponse => exact ⟨_, step_takeResponse hin⟩
    | reset contents => exact ⟨_, step_reset hin⟩

/-- Settles O4, by induction on the length of the run: the invariant gives the next state, and the next state meets it. -/
theorem runsNeverStop : Obligations.RunsNeverStop := by
  intro n
  induction n with
  | zero => exact fun s hs => ⟨s, rfl, hs⟩
  | succ n ih =>
    intro s hs
    obtain ⟨m, hm⟩ := step_answers hs
    rw [run_succ n hm]
    exact ih m (step_keeps_blockInv hs hm)

/-! ## Commands that err -/

theorem resultAfter_of_ne_ok {st : Status} (h : st ≠ .ok) (r : Word) : resultAfter st r = 0 := if_neg h

/-- With a status other than OK, completion delivers 0 whatever it is given. -/
theorem complete_of_ne_ok {st : Status} (h : st ≠ .ok) (s : State) (r : Word) : s.complete st r = s.complete st 0 := by
  rw [State.complete, State.complete, resultAfter_of_ne_ok h, resultAfter_of_ne_ok h]

/-- The statuses from 2 up are errors (R200). -/
theorem ne_ok_of_two_le_code {st : Status} (h : 2 ≤ st.code.toNat) : st ≠ .ok := by
  rintro rfl
  exact absurd h (by decide)

/-- A command that does not complete OK leaves the state it found but for its completion. -/
theorem exec_of_ne_ok {i : Instr} {s t : State} (h : exec i s = .next t) (hst : t.status ≠ .ok) :
    t = s.complete t.status 0 := by
  cases completes_of_exec h with
  | unchanged st r _ => exact complete_of_ne_ok hst s r
  | written u r _ => exact absurd rfl hst

/-- The same of a command word, legal or not. -/
theorem runCommand_of_ne_ok {c : Command} {s t : State} (h : runCommand c s = .next t) (hst : t.status ≠ .ok) :
    t = s.complete t.status 0 := by
  cases hd : decode c with
  | none =>
    rw [runCommand_of_none hd, raise_eq_next] at h
    rw [h, complete_status]
  | some i => exact exec_of_ne_ok (runCommand_of_some hd s ▸ h) hst

/-- Settles O13: the writes of a completion, and the two ways in which a command completes. -/
theorem completionWritesTheConditionState : Obligations.CompletionWritesTheConditionState := by
  refine ⟨fun s st r => ⟨rfl, rfl, rfl, errlogWord_complete s st r, sameBlock_complete s st r, rfl, rfl, rfl⟩,
    fun c s t h => ?_, fun c s t h hcode => ?_⟩
  · obtain ⟨u, st, r, ht, -⟩ := runCommand_ends_in_complete h
    exact ⟨u, st, r, ht⟩
  · have ht := runCommand_of_ne_ok h (ne_ok_of_two_le_code hcode)
    exact ⟨ht, ht ▸ sameBlock_complete ..⟩

end Sys2Proof.Machine
end

section
/-! PROOF. What a command answers depends on the block and not on the condition state (60_exceptions.md R204): the only commands
that look at STATUS, ERRLOG or RESULT are the RDREGs of these three. -/
namespace Sys2Proof.Machine

/-! ## The condition state replaced -/

/-- The state with the condition state of another one: its STATUS, ERRLOG, RESULT and response. -/
def State.withConditionOf (s c : State) : State :=
  { s with status := c.status, errlog := c.errlog, result := c.result, rsp := c.rsp }

/-- The outcome with the ERRLOG that its completion leaves when ERRLOG was `errlog` before the command. -/
def fromErrlog (errlog : BitVec 10) : Result → Result
  | .next t => .next { t with errlog := errlogAfter errlog t.status }
  | .fault r => .fault r
  | .refused r => .refused r

/-- A completion writes nothing but the condition state. -/
theorem complete_eq_withConditionOf (s : State) (st : Status) (r : Word) :
    s.complete st r = s.withConditionOf (s.complete st r) := rfl

section
variable {s c : State}

theorem withConditionOf_orField (i : Nat) (v : Word) :
    (s.withConditionOf c).orField i v = (s.orField i v).withConditionOf c := by
  change (if spans s.width i then _ else _) = State.withConditionOf (if spans s.width i then _ else _) c
  split <;> rfl

theorem withConditionOf_writeField (i : Nat) (v : Word) :
    (s.withConditionOf c).writeField i v = (s.writeField i v).withConditionOf c := by
  change (if spans s.width i then _ else _) = State.withConditionOf (if spans s.width i then _ else _) c
  split <;> rfl

theorem withConditionOf_append (v : Word) : (s.withConditionOf c).append v = (s.append v).withConditionOf c := by
  simp only [State.append]
  rw [withConditionOf_orField]
  rfl

theorem withConditionOf_withRoom : (s.withConditionOf c).withRoom = s.withRoom.withConditionOf c := by
  change (if s.needsWord then _ else _) = State.withConditionOf (if s.needsWord then _ else _) c
  split <;> rfl

/-- A register number other than 5 to 7 names no register of the condition state (43_observation.md R180). -/
theorem withConditionOf_readReg {a : Word} {r : Reg} (h : Reg.ofNumber a = some r) (h5 : a ≠ 0x05) (h6 : a ≠ 0x06)
    (h7 : a ≠ 0x07) : (s.withConditionOf c).readReg r = s.readReg r := by
  unfold Reg.ofNumber at h
  split at h
  case h_6 e => exact absurd (BitVec.eq_of_toNat_eq e) h5
  case h_7 e => exact absurd (BitVec.eq_of_toNat_eq e) h6
  case h_8 e => exact absurd (BitVec.eq_of_toNat_eq e) h7
  case h_17 => cases h
  all_goals obtain rfl := Option.some.inj h; rfl

/-! ## The commands -/

theorem finish_withConditionOf (st : Status) (r : Word) :
    finish st r (s.withConditionOf c) = fromErrlog c.errlog (finish st r s) := rfl

theorem ite_fromErrlog {errlog : BitVec 10} {p : Prop} [Decidable p] {x y x' y' : Result}
    (hx : x' = fromErrlog errlog x) (hy : y' = fromErrlog errlog y) :
    (if p then x' else y') = fromErrlog errlog (if p then x else y) := by
  rw [apply_ite (fromErrlog errlog), hx, hy]

theorem unlessRefused_withConditionOf {refusal : Option Status} {go go' : Result} (h : go' = fromErrlog c.errlog go) :
    unlessRefused refusal (s.withConditionOf c) go' = fromErrlog c.errlog (unlessRefused refusal s go) := by
  cases refusal with
  | none => exact h
  | some st => rfl

theorem onWord_withConditionOf {k : Nat} {go go' : Result} (h : go' = fromErrlog c.errlog go) :
    onWord k (s.withConditionOf c) go' = fromErrlog c.errlog (onWord k s go) :=
  ite_fromErrlog h rfl

theorem onElement_withConditionOf {i : Nat} {go go' : Result} (h : go' = fromErrlog c.errlog go) :
    onElement i (s.withConditionOf c) go' = fromErrlog c.errlog (onElement i s go) :=
  onWord_withConditionOf h

theorem execPush_withConditionOf (v : Word) : execPush v (s.withConditionOf c) = fromErrlog c.errlog (execPush v s) := by
  refine unlessRefused_withConditionOf (ite_fromErrlog rfl (ite_fromErrlog rfl (onElement_withConditionOf ?_)))
  change finish .ok 0 ((s.withConditionOf c).withRoom.append v) = fromErrlog c.errlog (finish .ok 0 (s.withRoom.append v))
  rw [withConditionOf_withRoom, withConditionOf_append, finish_withConditionOf]

/-- Whatever the condition state, a command that reads none of its registers takes the block to the same block with the same
answer. -/
theorem exec_withConditionOf {i : Instr} (h5 : i ≠ .rdreg 0x05) (h6 : i ≠ .rdreg 0x06) (h7 : i ≠ .rdreg 0x07) :
    exec i (s.withConditionOf c) = fromErrlog c.errlog (exec i s) := by
  cases i with
  | new n => exact ite_fromErrlog rfl rfl
  | withCapacity n a => exact ite_fromErrlog rfl (ite_fromErrlog rfl rfl)
  | len | capacity => exact unlessRefused_withConditionOf rfl
  | push v => exact execPush_withConditionOf v
  | get a | getUnchecked a => exact unlessRefused_withConditionOf (ite_fromErrlog rfl (onElement_withConditionOf rfl))
  | set a v | setUnchecked a v =>
    refine unlessRefused_withConditionOf (ite_fromErrlog rfl (ite_fromErrlog rfl (onElement_withConditionOf ?_)))
    rw [withConditionOf_writeField, finish_withConditionOf]
  | iter k | intoIter k => exact ite_fromErrlog rfl (unlessRefused_withConditionOf rfl)
  | iterNext k => exact ite_fromErrlog rfl (ite_fromErrlog rfl (onElement_withConditionOf rfl))
  | iterDrop k =>
    cases hk : (s.slot k).state with
    | idle => rw [exec_iterDrop_of_idle hk, exec_iterDrop_of_idle (s := s.withConditionOf c) hk]; rfl
    | borrow => rw [exec_iterDrop_of_borrow hk, exec_iterDrop_of_borrow (s := s.withConditionOf c) hk]; rfl
    | own => rw [exec_iterDrop_of_own hk, exec_iterDrop_of_own (s := s.withConditionOf c) hk]; rfl
  | rdreg a =>
    cases hr : Reg.ofNumber a with
    | none => rw [exec_rdreg_of_reserved hr, exec_rdreg_of_reserved hr]; rfl
    | some r =>
      simp only [exec, execRdreg, hr]
      rw [withConditionOf_readReg hr (fun e => h5 (e ▸ rfl)) (fun e => h6 (e ▸ rfl)) fun e => h7 (e ▸ rfl)]
      rfl
  | rdword a => exact ite_fromErrlog rfl (onWord_withConditionOf rfl)

end

/-- Settles O19: the failed command has changed the condition state only, and the next command does not look at it. -/
theorem failedCommandsLeaveTheNextAsItWas : Obligations.FailedCommandsLeaveTheNextAsItWas := by
  intro c j s m hs hm hcode h5 h6 h7
  obtain ⟨t, ht⟩ := exec_answers hs j
  refine ⟨t, { t with errlog := errlogAfter m.errlog t.status }, ht, ?_, rfl, rfl, ?_⟩
  · rw [runCommand_of_ne_ok hm (ne_ok_of_two_le_code hcode), complete_eq_withConditionOf, exec_withConditionOf h5 h6 h7, ht]
    rfl
  · exact ⟨⟨rfl, rfl, rfl, rfl, rfl⟩, fun _ => rfl, fun _ => rfl⟩

end Sys2Proof.Machine
end

section
/-! PROOF. The status of a command (60_exceptions.md R200, R201, R205): the checks of the model in their order, the causes of the
spec in theirs, and that the two agree. -/
namespace Sys2Proof.Machine

/-! ## The status that the checks of a command lead to -/

/-- The status with which each command ends, by the checks in the order in which its meaning makes them. -/
def checkedStatus (i : Instr) (s : State) : Status :=
  match i with
  | .new _ => if s.anyIter then .eBusy else .ok
  | .withCapacity n a => if s.anyIter then .eBusy else if s.wMax < wordsFor n a.toNat then .eNoMem else .ok
  | .len | .capacity => (readRefusal s).getD .ok
  | .push v => (writeRefusal s).getD <|
      if s.outOfRange v then .eRange
      else if s.needsWord && decide (s.wMax < s.wcount.toNat + 1) then .eNoMem else .ok
  | .get a => (readRefusal s).getD <| if s.length ≤ a then .absent else .ok
  | .getUnchecked a => (readRefusal s).getD <| if !s.inStorage a.toNat then .eOob else .ok
  | .set a v => (writeRefusal s).getD <| if s.length ≤ a then .eBounds else if s.outOfRange v then .eRange else .ok
  | .setUnchecked a v => (writeRefusal s).getD <|
      if s.outOfRange v then .eRange else if !s.inStorage a.toNat then .eOob else .ok
  | .iter k => if (s.slot k).state ≠ .idle then .eSlot else (readRefusal s).getD .ok
  | .intoIter k => if (s.slot k).state ≠ .idle then .eSlot else (writeRefusal s).getD .ok
  | .iterNext k =>
    if (s.slot k).state = .idle then .eSlot else if s.length ≤ (s.slot k).cur then .absent else .ok
  | .iterDrop k => if (s.slot k).state = .idle then .eSlot else .ok
  | .rdreg a => if Reg.ofNumber a = none then .eIllegal else .ok
  | .rdword a => if s.wcount ≤ a then .eOob else .ok

/-- The outcome, if it is a next state, has this status. -/
def HasStatus (o : Result) (st : Status) : Prop := ∀ t, o = .next t → t.status = st

theorem hasStatus_finish {st : Status} {r : Word} {s : State} : HasStatus (finish st r s) st := by
  rintro _ ⟨⟩
  rfl

theorem hasStatus_ite {c : Prop} [Decidable c] {p q : Result} {st st' : Status} (hp : HasStatus p st)
    (hq : HasStatus q st') : HasStatus (if c then p else q) (if c then st else st') := by
  split
  · exact hp
  · exact hq

theorem hasStatus_unlessRefused {refusal : Option Status} {s : State} {go : Result} {st : Status} (h : HasStatus go st) :
    HasStatus (unlessRefused refusal s go) (refusal.getD st) := by
  cases refusal with
  | none => exact h
  | some e => exact hasStatus_finish

theorem hasStatus_onWord {k : Nat} {s : State} {go : Result} {st : Status} (h : HasStatus go st) :
    HasStatus (onWord k s go) st :=
  fun t ht => h t ((onWord_eq_next ..).1 ht).2

theorem hasStatus_onElement {i : Nat} {s : State} {go : Result} {st : Status} (h : HasStatus go st) :
    HasStatus (onElement i s go) st :=
  hasStatus_onWord h

/-- Every command ends with the status that its checks lead to. -/
theorem exec_hasStatus (i : Instr) (s : State) : HasStatus (exec i s) (checkedStatus i s) := by
  have fin {st : Status} {r : Word} {u : State} : HasStatus (finish st r u) st := hasStatus_finish
  have element {e : Nat} {st : Status} {r : Word} {u : State} : HasStatus (onElement e s (finish st r u)) st :=
    hasStatus_onElement fin
  cases i with
  | new n => exact hasStatus_ite fin fin
  | withCapacity n a => exact hasStatus_ite fin (hasStatus_ite fin fin)
  | len | capacity => exact hasStatus_unlessRefused fin
  | get a | getUnchecked a => exact hasStatus_unlessRefused (hasStatus_ite fin element)
  | push v | set a v | setUnchecked a v =>
    exact hasStatus_unlessRefused (hasStatus_ite fin (hasStatus_ite fin element))
  | iter k | intoIter k => exact hasStatus_ite fin (hasStatus_unlessRefused fin)
  | iterNext k => exact hasStatus_ite fin (hasStatus_ite fin element)
  | iterDrop k => exact hasStatus_ite fin fin
  | rdreg a =>
    simp only [exec, execRdreg, checkedStatus]
    cases Reg.ofNumber a with
    | none => exact fin
    | some r => exact fin
  | rdword a => exact hasStatus_ite fin (hasStatus_onWord fin)

/-! ## The statuses of each command (R200) -/

theorem readRefusal_getD (s : State) (st : Status) :
    (readRefusal s).getD st = if s.valid = false then .eNoArray else if s.moved then .eMoved else st := by
  unfold readRefusal
  cases s.valid <;> cases s.moved <;> rfl

theorem writeRefusal_getD (s : State) (st : Status) :
    (writeRefusal s).getD st =
      if s.valid = false then .eNoArray else if s.moved then .eMoved else if s.borrowed then .eBorrowed else st := by
  unfold writeRefusal readRefusal
  cases s.valid <;> cases s.moved <;> cases s.borrowed <;> rfl

/-- The checks of a command lead to OK or to a status that R200 says it raises. -/
theorem checkedStatus_mem (i : Instr) (s : State) : checkedStatus i s ∈ .ok :: mayRaise i := by
  cases i <;> simp only [checkedStatus, readRefusal_getD, writeRefusal_getD, mayRaise]
  all_goals split_ifs <;> decide

/-- Settles O16: every status that the checks of a command lead to is listed for it. -/
theorem statusesComeFromTheirCommands : Obligations.StatusesComeFromTheirCommands := by
  refine ⟨by decide, fun i s t h => ?_⟩
  rw [exec_hasStatus i s t h]
  exact List.mem_cons.1 (checkedStatus_mem i s)

/-! ## The first cause (R201, R205) -/

/-- The first cause in a list is its head, or else the first cause in its tail. -/
theorem getD_find?_cons (cause : Status → Bool) (e : Status) (l : List Status) (d : Status) :
    ((e :: l).find? cause).getD d = if cause e then e else (l.find? cause).getD d := by
  rw [List.find?_cons]
  cases cause e <;> rfl

theorem reported_eq (i : Instr) (s : State) :
    reported i s = ((checkOrder i).find? (errorCause i s)).getD (if isAbsent i s then .absent else .ok) := by
  unfold reported
  cases (checkOrder i).find? (errorCause i s) <;> rfl

/-- R29's count of words, which holds without an array too. -/
theorem wcount_eq {s : State} (hs : BlockInv s) : s.wcount.toNat = (s.length.toNat * s.width + 31) / 32 := by
  obtain ⟨ha, hn, -⟩ := hs
  cases hv : s.valid
  · obtain ⟨-, hl, hw, -⟩ := hn hv
    simp [hl, hw]
  · exact (ha hv).1

/-- PUSH's two checks for memory together are the cause of E_NOMEM: WCOUNT is at most W_MAX. -/
theorem noRoom_eq_cause {s : State} (hs : BlockInv s) :
    (s.needsWord && decide (s.wMax < s.wcount.toNat + 1)) =
      (decide (32 * s.wcount.toNat < (s.length.toNat + 1) * s.width) && decide (s.wcount.toNat = s.wMax)) := by
  have hmax := wcount_le_wMax hs
  rw [Bool.eq_iff_iff, Bool.and_eq_true, Bool.and_eq_true, needsWord_iff (wcount_eq hs), Nat.add_mul, Nat.one_mul]
  simp only [decide_eq_true_eq]
  omega

/-- The range check is the cause of E_RANGE. -/
theorem outOfRange_iff (s : State) (v : Word) : s.outOfRange v = true ↔ 2 ^ s.width - 1 < v.toNat := decide_eq_true_iff

/-- The reserved register numbers are those outside the two ranges of R180. -/
theorem Reg.ofNumber_eq_none_iff (a : Word) :
    Reg.ofNumber a = none ↔ (decide (a.toNat ≤ 0x07) || decide (0x10 ≤ a.toNat ∧ a.toNat ≤ 0x17)) = false := by
  rw [Bool.or_eq_false_iff, decide_eq_false_iff_not, decide_eq_false_iff_not]
  refine ⟨fun h => ?_, fun h => Reg.ofNumber_eq_none (by omega)⟩
  unfold Reg.ofNumber at h
  split at h
  case h_17 => simp only [imp_false] at *; omega
  all_goals cases h

/-- The checks of the model, in its order, are the causes of R201, in the order of R205. Written out, the two chains of checks
are the same for every command but three, whose conditions the spec words otherwise. -/
theorem checkedStatus_eq_reported {s : State} (hs : BlockInv s) (i : Instr) : checkedStatus i s = reported i s := by
  rw [reported_eq]
  cases i <;> simp only [checkedStatus, readRefusal_getD, writeRefusal_getD, checkOrder, getD_find?_cons, List.find?_nil,
    Option.getD_none, errorCause, isAbsent, needsArray, writesOrMoves, outOfRange_iff, BitVec.le_def,
    Bool.false_and, Bool.true_and, Bool.false_eq_true, if_false, Bool.not_eq_true', decide_eq_true_eq]
  case withCapacity n a => simp only [← Nat.not_le, wordsFor_le_iff]
  case push v => rw [noRoom_eq_cause hs]; rfl
  case rdreg a => simp only [Reg.ofNumber_eq_none_iff]

/-- Settles O17: a command answers, and its checks lead to the first cause. -/
theorem commandsReportTheirFirstCause : Obligations.CommandsReportTheirFirstCause := by
  refine ⟨fun c s hd => ⟨_, runCommand_of_none hd s, rfl⟩, fun c i s hs hd => ?_⟩
  obtain ⟨t, ht⟩ := exec_answers hs i
  refine ⟨t, (runCommand_of_some hd s).trans ht, ?_⟩
  rw [exec_hasStatus i s t ht, checkedStatus_eq_reported hs]

end Sys2Proof.Machine
end

section
/-! PROOF. Refusals by ownership (60_exceptions.md R206): the array state fixes the ownership checks, which come before those of
the operands. -/
namespace Sys2Proof.Machine

/-! ## Commands that go on -/

/-- If the command answers, it is with none of the four refusals. -/
def GoesOn (i : Instr) (s : State) : Prop :=
  ∀ t, exec i s = .next t → t.status ∉ [Status.eBusy, .eNoArray, .eMoved, .eBorrowed]

/-- An error that is reported has its cause. -/
theorem errorCause_of_reported {i : Instr} {s : State} {e : Status} (h : reported i s = e) (hok : e ≠ .ok)
    (habsent : e ≠ .absent) : errorCause i s e = true := by
  unfold reported at h
  split at h
  · next hfirst => exact h ▸ List.find?_some hfirst
  · split at h
    · exact absurd h.symm habsent
    · exact absurd h.symm hok

/-- Without a cause for one of the four refusals a command goes on to its operand checks. -/
theorem goesOn_of_no_cause {i : Instr} {s : State} (hs : BlockInv s) (hbusy : errorCause i s .eBusy = false)
    (hnoArray : errorCause i s .eNoArray = false) (hmoved : errorCause i s .eMoved = false)
    (hborrowed : errorCause i s .eBorrowed = false) : GoesOn i s := by
  intro t ht hmem
  have hreported : reported i s = t.status := by rw [exec_hasStatus i s t ht, checkedStatus_eq_reported hs]
  have hok : t.status ≠ .ok := fun e => absurd (e ▸ hmem) (by decide)
  have habsent : t.status ≠ .absent := fun e => absurd (e ▸ hmem) (by decide)
  have hnone : ∀ e ∈ [Status.eBusy, .eNoArray, .eMoved, .eBorrowed], errorCause i s e = false := by
    simpa using ⟨hbusy, hnoArray, hmoved, hborrowed⟩
  exact Bool.false_ne_true ((hnone _ hmem).symm.trans (errorCause_of_reported hreported hok habsent))

/-- A constructor goes on while no iterator is open. -/
theorem goesOn_constructor {s : State} (hs : BlockInv s) (hi : AllIdle s) (n : Nat) (a : Word) :
    GoesOn (.new n) s ∧ GoesOn (.withCapacity n a) s := by
  have hbusy := (anyIter_eq_false s).2 hi
  exact ⟨goesOn_of_no_cause hs hbusy rfl rfl rfl, goesOn_of_no_cause hs hbusy rfl rfl rfl⟩

/-- With an array and no iterator every command goes on. -/
theorem goesOn_of_allIdle {s : State} (hs : BlockInv s) (hv : s.valid = true) (hi : AllIdle s) (i : Instr) : GoesOn i s := by
  have hbusy : errorCause i s .eBusy = false := by cases i <;> simp [errorCause, (anyIter_eq_false s).2 hi]
  have hmoved := (moved_eq_false s).2 (notMoved_of_allIdle hi)
  have hborrowed : s.borrowed = false := (borrowed_eq_false s).2 fun k => by rw [hi k]; decide
  exact goesOn_of_no_cause hs hbusy (by simp [errorCause, hv]) (by simp [errorCause, hmoved]) (by simp [errorCause, hborrowed])

/-- A read of an array that no iterator owns goes on. -/
theorem goesOn_read {s : State} (hs : BlockInv s) (hv : s.valid = true) (hm : s.moved = false) {i : Instr}
    (hbusy : errorCause i s .eBusy = false) (hread : writesOrMoves i = false) : GoesOn i s :=
  goesOn_of_no_cause hs hbusy (by simp [errorCause, hv]) (by simp [errorCause, hm]) (by simp [errorCause, hread])

/-! ## The four array states -/

/-- Without an array every slot is idle (R32). -/
theorem allIdle_of_not_valid {s : State} (hs : BlockInv s) (hv : s.valid = false) : AllIdle s := by
  obtain ⟨-, hn, -⟩ := hs
  obtain ⟨-, -, -, -, hidle⟩ := hn hv
  exact hidle

/-- With an open slot there is an array, and the constructors are busy. -/
theorem valid_and_anyIter_of_open {s : State} (hs : BlockInv s) {k : SlotId} (hk : (s.slot k).state ≠ .idle) :
    s.valid = true ∧ s.anyIter = true := by
  obtain ⟨-, hn, -⟩ := hs
  exact ⟨valid_of_open hn hk, (anyIter_eq_true s).2 ⟨k, hk⟩⟩

/-- A borrowed array exists, is not moved, and has an open iterator (R39). -/
theorem borrowed_facts {s : State} (hs : BlockInv s) (hb : s.borrowed = true) :
    s.valid = true ∧ s.anyIter = true ∧ s.moved = false := by
  obtain ⟨k, hk⟩ := (borrowed_eq_true s).1 hb
  have hopen : (s.slot k).state ≠ .idle := by rw [hk]; decide
  obtain ⟨hv, hany⟩ := valid_and_anyIter_of_open hs hopen
  obtain ⟨-, -, ⟨halone, -⟩, -⟩ := hs
  refine ⟨hv, hany, (moved_eq_false s).2 fun j hj => ?_⟩
  rw [halone j k hj hopen, hk] at hj
  cases hj

/-- A moved array exists and has an open iterator. -/
theorem moved_facts {s : State} (hs : BlockInv s) (hm : s.moved = true) : s.valid = true ∧ s.anyIter = true := by
  obtain ⟨k, hk⟩ := (moved_eq_true s).1 hm
  exact valid_and_anyIter_of_open hs (k := k) (by rw [hk]; decide)

/-! ## Commands that are refused -/

theorem endsWith_eBusy {s : State} (h : s.anyIter = true) (n : Nat) (a : Word) :
    EndsWith (.new n) s .eBusy ∧ EndsWith (.withCapacity n a) s .eBusy :=
  ⟨endsWith_of (exec_new_of_busy h n), endsWith_of (exec_withCapacity_of_busy h n a)⟩

/-- The ownership checks of an array command: those of a write if it writes or moves the array, else those of a read. -/
def ownershipRefusal (i : Instr) (s : State) : Option Status := if writesOrMoves i then writeRefusal s else readRefusal s

/-- An array command that its ownership checks refuse ends with their status, unless its slot is refused before. -/
theorem endsWith_of_refusal {i : Instr} {s : State} {e : Status} (hi : needsArray i = true)
    (hslot : errorCause i s .eSlot = false) (hr : ownershipRefusal i s = some e) : EndsWith i s e := by
  refine endsWith_of ?_
  cases i with
  | len | capacity | get _ | getUnchecked _ | push _ | set _ _ | setUnchecked _ _ => exact unlessRefused_some hr
  | iter k | intoIter k => exact (if_neg (of_decide_eq_false hslot)).trans (unlessRefused_some hr)
  | _ => cases hi

theorem endsWith_eMoved {s : State} (hs : BlockInv s) (hm : s.moved = true) {i : Instr} (hi : needsArray i = true)
    (hslot : errorCause i s .eSlot = false) : EndsWith i s .eMoved := by
  obtain ⟨hv, -⟩ := moved_facts hs hm
  refine endsWith_of_refusal hi hslot ?_
  unfold ownershipRefusal
  split
  · exact (writeRefusal_eq_some ..).2 (.inr (.inl ⟨hv, hm, rfl⟩))
  · exact (readRefusal_eq_some ..).2 (.inr ⟨hv, hm, rfl⟩)

theorem endsWith_eBorrowed {s : State} (hs : BlockInv s) (hb : s.borrowed = true) {i : Instr} (hi : needsArray i = true)
    (hwrite : writesOrMoves i = true) (hslot : errorCause i s .eSlot = false) : EndsWith i s .eBorrowed := by
  obtain ⟨hv, -, hm⟩ := borrowed_facts hs hb
  refine endsWith_of_refusal hi hslot ?_
  rw [ownershipRefusal, if_pos hwrite]
  exact (writeRefusal_eq_some ..).2 (.inr (.inr ⟨hv, hm, hb, rfl⟩))

/-- ITER and INTO_ITER of an idle slot pass the slot check. -/
theorem no_eSlot_of_idle {s : State} {k : SlotId} (hk : (s.slot k).state = .idle) :
    errorCause (.iter k) s .eSlot = false ∧ errorCause (.intoIter k) s .eSlot = false :=
  ⟨decide_eq_false (not_not.2 hk), decide_eq_false (not_not.2 hk)⟩

/-! ## The table -/

/-- Settles O18: one case per array state, and the commands that go on in every state. -/
theorem refusalsFollowTheOwnershipTable : Obligations.RefusalsFollowTheOwnershipTable := by
  intro s n a v k hs
  have other {i : Instr} := goesOn_of_no_cause (i := i) hs
  refine ⟨fun hv => ?noArray, fun hv hi i _ => goesOn_of_allIdle hs hv hi i, fun hb => ?borrowed, fun hm => ?moved,
    other rfl rfl rfl rfl, other rfl rfl rfl rfl, other rfl rfl rfl rfl, other rfl rfl rfl rfl⟩
  case noArray =>
    have hidle := allIdle_of_not_valid hs hv
    have array : ∀ i ∈ [Instr.len, .capacity, .get a, .getUnchecked a, .push v, .set a v, .setUnchecked a v, .iter k,
      .intoIter k], needsArray i = true := by simp [needsArray]
    exact ⟨hidle k, fun i hi => endsWith_eNoArray hv hidle (array i hi), goesOn_constructor hs hidle n a⟩
  case borrowed =>
    obtain ⟨hv, hopen, hm⟩ := borrowed_facts hs hb
    obtain ⟨hnew, hwithCapacity⟩ := endsWith_eBusy hopen n a
    have reads : ∀ i ∈ [Instr.len, .capacity, .get a, .getUnchecked a],
        errorCause i s .eBusy = false ∧ writesOrMoves i = false := by simp [errorCause, writesOrMoves]
    have writes : ∀ i ∈ [Instr.push v, .set a v, .setUnchecked a v],
        needsArray i = true ∧ writesOrMoves i = true ∧ errorCause i s .eSlot = false := by
      simp [needsArray, writesOrMoves, errorCause]
    refine ⟨hnew, hwithCapacity, fun i hi => ?_, fun i hi => ?_, fun hk => ⟨goesOn_read hs hv hm rfl rfl, ?_⟩⟩
    · obtain ⟨hbusy, hread⟩ := reads i hi
      exact goesOn_read hs hv hm hbusy hread
    · obtain ⟨harray, hwrite, hslot⟩ := writes i hi
      exact endsWith_eBorrowed hs hb harray hwrite hslot
    · exact endsWith_eBorrowed hs hb rfl rfl (no_eSlot_of_idle hk).2
  case moved =>
    obtain ⟨-, hopen⟩ := moved_facts hs hm
    obtain ⟨hnew, hwithCapacity⟩ := endsWith_eBusy hopen n a
    have array : ∀ i ∈ [Instr.len, .capacity, .get a, .getUnchecked a, .push v, .set a v, .setUnchecked a v],
        needsArray i = true ∧ errorCause i s .eSlot = false := by simp [needsArray, errorCause]
    refine ⟨hnew, hwithCapacity, fun i hi => ?_, fun hk => ?_⟩
    · obtain ⟨harray, hslot⟩ := array i hi
      exact endsWith_eMoved hs hm harray hslot
    · obtain ⟨hiter, hintoIter⟩ := no_eSlot_of_idle hk
      exact ⟨endsWith_eMoved hs hm rfl hiter, endsWith_eMoved hs hm rfl hintoIter⟩

end Sys2Proof.Machine
end

section
/-! PROOF. Reset and boot (70_reset_and_hazards.md R240, R244): the values reset leaves, and a block without an array. -/
namespace Sys2Proof.Machine

/-! ## The storage after a reset -/

/-- A cell above all others is placed last. -/
theorem Storage.place_of_lt {m : Storage} {k : Nat} (v : Word) (h : ∀ c ∈ m, c.1 < k) : m.place k v = m ++ [(k, v)] := by
  induction m with
  | nil => rfl
  | cons d rest ih =>
    obtain ⟨hd, hrest⟩ := List.forall_mem_cons.1 h
    rw [Storage.place, if_neg hd.not_gt, ih hrest, List.cons_append]

/-- Writing a word above all listed ones lists it last. -/
theorem Storage.write_of_lt {m : Storage} {k : Nat} {v : Word} (h : ∀ c ∈ m, c.1 < k) (hv : v ≠ unwrittenWord) :
    m.write k v = m ++ [(k, v)] := by
  have hothers : m.filter (fun c => c.1 != k) = m := List.filter_eq_self.2 fun c hc => bne_iff_ne.2 (h c hc).ne
  rw [Storage.write, hothers, if_neg hv, Storage.place_of_lt v h]

theorem Storage.ofCells_concat (bound : Nat) (cells : List (Nat × Word)) (c : Nat × Word) :
    Storage.ofCells bound (cells ++ [c]) =
      if c.1 < bound then (Storage.ofCells bound cells).write c.1 c.2 else Storage.ofCells bound cells :=
  List.foldl_concat ..

/-- Canonical contents within the bound are what a reset with these contents stores. -/
theorem Storage.ofCells_eq_self {bound : Nat} {m : Storage} (hwf : m.wf) (hbound : ∀ c ∈ m, c.1 < bound) :
    Storage.ofCells bound m = m := by
  induction m using List.reverseRecOn with
  | nil => rfl
  | append_singleton m c ih =>
    obtain ⟨hsorted, hwritten⟩ := hwf
    obtain ⟨hm, -, hlt⟩ := List.pairwise_append.1 hsorted
    obtain ⟨hwm, hwc⟩ := List.forall_mem_append.1 hwritten
    obtain ⟨hbm, hbc⟩ := List.forall_mem_append.1 hbound
    have hc : c ∈ [c] := List.mem_singleton_self c
    rw [Storage.ofCells_concat, if_pos (hbc c hc), ih ⟨hm, hwm⟩ hbm,
      Storage.write_of_lt (fun d hd => hlt d hd c hc) (hwc c hc)]

/-- After a reset no word is allocated, so all that two resets can differ in is hidden. -/
theorem differsOnlyInHiddenWords_applyReset (s : State) (c d : List (Nat × Word)) :
    DiffersOnlyInHiddenWords (s.applyReset c) (s.applyReset d) :=
  ⟨rfl, fun _ hk => absurd hk (Nat.not_lt_zero _)⟩

/-- Settles O1: the values are those of power-up, which a reset shares but for the storage and what is the host's; canonical
contents are stored as they are. -/
theorem resetLeavesTheStateOfR240 : Obligations.ResetLeavesTheStateOfR240 := by
  unfold Obligations.ResetLeavesTheStateOfR240
  intro AtReset
  have powerUp (p : Config.Params) : AtReset (State.resetAt p) :=
    ⟨rfl, rfl, cfgWord_eq_zero rfl rfl, rfl, rfl, rfl, rfl, rfl, errlogWord_eq_zero rfl, rfl,
      fun k => by rw [resetAt_slot]; exact ⟨rfl, rfl, rfl⟩, rfl⟩
  exact ⟨powerUp, powerUp Config.defaultParams, fun s _ => powerUp s.params,
    fun _ m hwf hbound => ⟨m, Storage.ofCells_eq_self hwf hbound⟩, differsOnlyInHiddenWords_applyReset⟩

/-! ## Without an array -/

theorem valid_of_iterDrop_owner {s t : State} {k : SlotId} (hown : (s.slot k).state = .own)
    (h : exec (.iterDrop k) s = .next t) : t.valid = false := by
  rw [exec_iterDrop_of_own hown, finish_eq_next] at h
  rw [h]; rfl

/-- No array appears but by a constructor: CFG is written by the constructors and by the release alone (10_state.md R22). -/
theorem valid_eq_false_of_not_constructor {i : Instr} {s t : State} (hv : s.valid = false) (h : exec i s = .next t)
    (hi : ∀ n, i ≠ .new n ∧ ∀ a, i ≠ .withCapacity n a) : t.valid = false := by
  obtain ⟨-, -, -, written, -⟩ := cfgHoldsTheWidthUntilConstructionOrRelease
  by_cases hsame : t.valid = s.valid
  · rw [hsame, hv]
  · obtain ⟨n, hnew | ⟨a, hcap⟩⟩ | ⟨k, rfl, hown⟩ := written i s t h (.inr hsame)
    · exact absurd hnew (hi n).1
    · exact absurd hcap ((hi n).2 a)
    · exact valid_of_iterDrop_owner hown h

/-- The register numbers 0x00 to 0x07 are in the table of 43_observation.md R180. -/
theorem readsValue_rdreg_of_le {r : Word} (h : r.toNat ≤ 0x07) (s : State) : ∃ v, ReadsValue (.rdreg r) s v := by
  have listed : Reg.ofNumber r ≠ none := fun hnone => by
    obtain ⟨hlow, -⟩ := Bool.or_eq_false_iff.1 ((Reg.ofNumber_eq_none_iff r).1 hnone)
    exact of_decide_eq_false hlow h
  obtain ⟨reg, hreg⟩ := Option.ne_none_iff_exists'.1 listed
  exact ⟨_, readsValue_rdreg s hreg⟩

/-- Without an array no word is allocated (10_state.md R32). -/
theorem wcount_eq_zero_of_not_valid {s : State} (hs : BlockInv s) (hv : s.valid = false) : s.wcount = 0 := by
  obtain ⟨-, hn, -⟩ := hs
  obtain ⟨-, -, hw, -⟩ := hn hv
  exact hw

/-- No element needs no word, at every width. -/
theorem wordsFor_zero (n : Nat) : wordsFor n 0 = 0 := by
  rw [wordsFor, Nat.mul_zero]

/-- Settles O56: without an array every slot is idle and no word is allocated, which decides every command's checks. -/
theorem arrayCommandsNeedAConstructor : Obligations.ArrayCommandsNeedAConstructor := by
  refine ⟨fun p => ⟨blockInv_resetAt p, rfl⟩, fun s t k _ => valid_of_iterDrop_owner,
    fun i s t => valid_eq_false_of_not_constructor, fun s hs hv => ?_⟩
  have hidle := allIdle_of_not_valid hs hv
  refine ⟨fun i => endsWith_eNoArray hv hidle, fun r hr => readsValue_rdreg_of_le hr s, fun a => ?_, fun n _ _ => ?_,
    fun n _ _ => ?_⟩
  · have hnone : s.wcount ≤ a := by
      rw [wcount_eq_zero_of_not_valid hs hv]
      exact Nat.zero_le _
    exact endsWith_of (exec_rdword_of_ge hnone)
  · exact ⟨_, answers_construct (exec_new_of_allIdle hidle n), rfl⟩
  · have hfits : wordsFor n (0 : Word).toNat ≤ s.wMax := (wordsFor_zero n).trans_le (Nat.zero_le _)
    exact ⟨_, answers_construct (exec_withCapacity_of_fits hidle hfits), rfl⟩

end Sys2Proof.Machine
end
